-- ==== Sys2Proof/Word.lean ====
section
/-! DEFINITION. The word types of the block: a register word of 32 bits and a memory byte of 8 bits. -/

namespace Sys2Proof

/-- A register and a command word: "Every register is 32 bits wide" (10_state.md section 2, R80). -/
abbrev Word := BitVec 32

/-- One byte of SRC or FRAME: "8 bits per byte" (20_memory.md R61, R62). -/
abbrev Byte := BitVec 8

end Sys2Proof
end

