-- ==== Sys2Proof/Config.lean ====
section
/-! DEFINITION. The implementation parameters (00_scope.md R5, R6) and the one free value of the model. -/

namespace Sys2Proof

/-- The four parameters of R5. Each bounded parameter is held as its distance from its least legal
value, so that every `Params` is a legal choice and every legal choice is a `Params`: a claim over all
`Params` is a claim "for every legal value of a parameter" (R5), with no side condition. -/
structure Params where
  /-- LW - 1, for 1 <= LW <= 127. -/
  lwLess1 : Fin 127
  /-- LH - 1, for 1 <= LH <= 127. -/
  lhLess1 : Fin 127
  /-- FRAME_AW - 16, for 16 <= FRAME_AW <= 20. -/
  awLess16 : Fin 5
  /-- CORNER_OOB_SOLID: what `solidAt` answers when both coordinates are out of bounds (R162). -/
  cornerOobSolid : Bool
deriving DecidableEq, Repr, Inhabited

/-- LW, LEVEL_WIDTH_CELLS: 1 to 127 (R5). -/
def Params.lw (p : Params) : Nat := p.lwLess1.val + 1

/-- LH, LEVEL_HEIGHT_CELLS: 1 to 127 (R5). -/
def Params.lh (p : Params) : Nat := p.lhLess1.val + 1

/-- FRAME_AW, the address width of FRAME: 16 to 20 (R5). -/
def Params.frameAw (p : Params) : Nat := p.awLess16.val + 16

/-- FRAME_SIZE = 2^FRAME_AW bytes (R6). -/
def Params.frameSize (p : Params) : Nat := 2 ^ p.frameAw

/-- LCB = ceil(LW * LH / 8), LEVEL_CELL_BYTES (R6). The rule's other form, (LW * LH + 7) div 8, is
`Params.lcb_eq` of Laws/Basic.lean; this form shows LCB >= 1 for parameters without a known value. -/
def Params.lcb (p : Params) : Nat := (p.lw * p.lh - 1) / 8 + 1

/-- SRC_SIZE = 65536 bytes (R6). -/
def srcSize : Nat := 65536

/-- The parameters of the block that `Machine.State.reset` describes. The source gives no value for
any of them (R5), so this constant has no body: nothing can be proved of it beyond what holds of every
`Params` (notes/assumptions/1.md). -/
opaque Config.params : Params

/-- The bytes a host may read from FRAME while a PLANE or SPRITE is BUSY: "any byte value: the model
draws it freely" (70_reset_and_hazards.md R236). The argument is `Machine.State.draws`, the number of
draws made so far; no value of this function can be proved (notes/assumptions/5.md). -/
opaque Config.freeByte : Nat → Byte

end Sys2Proof
end

