-- ==== Sys2Proof/Syntax.lean ====
section
/-! DEFINITION. The commands of the block, one constructor for each row of spec/opcode_table.json, and
the raw fields of a command word. -/

namespace Sys2Proof

/-- The eight legal commands (30_encoding.md R81 to R83). No command has an operand of its own: "No
field of the command word is an immediate. Every operand comes from the latched operand registers"
(R80). -/
inductive Instr where
  /-- NOP, word 0x00000000 (R107). -/
  | nop
  /-- PLANE, word 0x00000001 (R123). -/
  | plane
  /-- PLANE.M, word 0x00000009 (R123). -/
  | planeM
  /-- SPRITE, word 0x00000002 (R142). -/
  | sprite
  /-- SPRITE.M, word 0x0000000A (R142). -/
  | spriteM
  /-- CELLS, word 0x00000003 (R161). -/
  | cells
  /-- SOLID, word 0x00000004 (R164). -/
  | solid
  /-- TILE, word 0x00000005 (R165). -/
  | tile
deriving DecidableEq, Repr

/-- The fields of a command word (R80): OP = bits [2:0], M = bit [3], RES = bits [31:4]. -/
structure CmdFields where
  op  : BitVec 3
  m   : Bool
  res : BitVec 28
deriving DecidableEq, Repr

end Sys2Proof
end

