-- ==== Sys2Proof/WellFormed.lean ====
section
/-! DEFINITION. When the fields of a command word are those of a legal command (30_encoding.md R80 to
R83). A constructor of `Instr` has no operands, so what can be ill formed is a triple of fields. -/

namespace Sys2Proof

/-- RES "reserved, must be 0" (R80). -/
def CmdFields.resZero (f : CmdFields) : Bool := f.res == 0#28

/-- OP is a command number: 6 and 7 are reserved (R81). -/
def CmdFields.opAssigned (f : CmdFields) : Bool := decide (f.op.toNat < 6)

/-- M is "legal only with OP = 1 or 2" (R80, R82). -/
def CmdFields.maskAllowed (f : CmdFields) : Bool := !f.m || f.op == 1#3 || f.op == 2#3

/-- The fields of a legal command word (R83). -/
def CmdFields.wf (f : CmdFields) : Bool := f.resZero && f.opAssigned && f.maskAllowed

/-- The fields of each command, from the tables of R81 and R82. -/
def Instr.fields : Instr → CmdFields
  | .nop     => ⟨0#3, false, 0#28⟩
  | .plane   => ⟨1#3, false, 0#28⟩
  | .planeM  => ⟨1#3, true, 0#28⟩
  | .sprite  => ⟨2#3, false, 0#28⟩
  | .spriteM => ⟨2#3, true, 0#28⟩
  | .cells   => ⟨3#3, false, 0#28⟩
  | .solid   => ⟨4#3, false, 0#28⟩
  | .tile    => ⟨5#3, false, 0#28⟩

/-- An instruction is well formed when its fields are. -/
def Instr.wf (i : Instr) : Bool := i.fields.wf

end Sys2Proof
end

