-- ==== Sys2Proof/Decode.lean ====
section
/-! DEFINITION. The decoder and the encoder of the 32-bit command word (30_encoding.md section 2). A
command word is a register value the host writes to CMD as one 32-bit access; it is never held in a
memory, so it has no byte order (20_memory.md R64). -/

namespace Sys2Proof

/-- Why a word is no command: the three conditions of R83's last row. -/
inductive DecodeError where
  /-- w[31:4] is not 0. -/
  | reservedBits
  /-- OP is 6 or 7. -/
  | reservedOp
  /-- M = 1 with an OP that is not 1 or 2. -/
  | maskNotAllowed
deriving DecidableEq, Repr

/-- OP = w[2:0], M = w[3], RES = w[31:4] (R80). -/
def splitFields (w : Word) : CmdFields :=
  { op := w.extractLsb' 0 3, m := w.getLsbD 3, res := w.extractLsb' 4 28 }

/-- The word with the given fields (R80). -/
def joinFields (f : CmdFields) : Word := f.res ++ BitVec.ofBool f.m ++ f.op

/-- The command with command number OP and polarity M, where the reserved bits are 0 (R81, R82). -/
def decodeOp (op : BitVec 3) (m : Bool) : Except DecodeError Instr :=
  match op.toNat, m with
  | 0, false => .ok .nop
  | 1, false => .ok .plane
  | 1, true  => .ok .planeM
  | 2, false => .ok .sprite
  | 2, true  => .ok .spriteM
  | 3, false => .ok .cells
  | 4, false => .ok .solid
  | 5, false => .ok .tile
  | 0, true  => .error .maskNotAllowed
  | 3, true  => .error .maskNotAllowed
  | 4, true  => .error .maskNotAllowed
  | 5, true  => .error .maskNotAllowed
  | _, _     => .error .reservedOp

/-- The full decode of a command word (R83). -/
def decode (w : Word) : Except DecodeError Instr :=
  if (splitFields w).res = 0#28 then decodeOp (splitFields w).op (splitFields w).m
  else .error .reservedBits

/-- `w` is one of the eight legal words of R83. -/
def legalWord (w : Word) : Bool :=
  match decode w with
  | .ok _    => true
  | .error _ => false

/-- The command word of an instruction (R81, R82). -/
def encode (i : Instr) : Word := joinFields i.fields

/-- The instruction the decoder reads from an opcode-table row's bits: `w` cut to `nbits` bits is the
32-bit value written to CMD, bit 0 the least significant (notes/assumptions/10.md). -/
def decodeTableWord (nbits w : Nat) : Option Instr :=
  match decode (BitVec.ofNat 32 (w % 2 ^ nbits)) with
  | .ok i    => some i
  | .error _ => none

end Sys2Proof
end

