-- ==== Sys2Proof/Machine/State.lean ====
section
/-! DEFINITION. The state of the block (10_state.md, 20_memory.md), the transactions a host can make,
the reasons a step can stop, and the state after reset. -/

namespace Sys2Proof.Machine

/-- SRC or FRAME: the bytes that have a value, as address and byte pairs with strictly rising addresses.
An address that is not listed has no value (20_memory.md R67), so no entry is ever redundant. -/
abbrev Memory := List Host.Cell

/-- The sequencer phase PHASE (10_state.md R45). -/
inductive Phase where
  | idle
  | busy
deriving DecidableEq, Repr

/-- The command latches LAT.* (10_state.md R44), written by accept only. `dstBase` is FRAME_AW bits
wide, held in the 20 bits of the widest block; accept keeps it below 2^FRAME_AW. -/
structure Latches where
  op      : BitVec 3
  m       : Bool
  wordOk  : Bool
  srcLen  : BitVec 16
  srcBase : BitVec 16
  dstBase : BitVec 20
  width   : BitVec 8
  height  : BitVec 8
  qx      : BitVec 8
  qy      : BitVec 8
deriving DecidableEq, Repr

/-- One host bus transaction: a read or a write of 8, 16 or 32 bits at a 24-bit host byte address
(20_memory.md R60, R65; 30_encoding.md R86). -/
inductive HostAccess where
  | read8   (addr : BitVec 24)
  | read16  (addr : BitVec 24)
  | read32  (addr : BitVec 24)
  | write8  (addr : BitVec 24) (data : Byte)
  | write16 (addr : BitVec 24) (data : BitVec 16)
  | write32 (addr : BitVec 24) (data : Word)
deriving DecidableEq, Repr

/-- What takes the next step: the two agents of 40_command_sequencer.md R100 and the reset input of
70_reset_and_hazards.md R230. -/
inductive Event where
  /-- The host performs one bus transaction. -/
  | host (a : HostAccess)
  /-- The sequencer takes its `complete` step, if PHASE = BUSY. -/
  | sequencer
  /-- The platform asserts the reset input. -/
  | reset
deriving DecidableEq, Repr

/-- What a host read returned: a register word, or a byte of SRC or FRAME (R86). -/
inductive Reply where
  | word (w : Word)
  | byte (b : Byte)
deriving DecidableEq, Repr

/-- The state of the block (10_state.md R20), beside the parameters it is built with and the model's own
record of the outside world.

* `params` are the parameters of 00_scope.md R5: configuration, which no step changes.
* `phase` .. `frame` are the block's state. STATUS.BUSY is `phase` (R25); CMD holds no state (R23); PARAM
  is computed from `params` (R40); the interrupt line is computed (60_exceptions.md R207).
* `events`, `replies` and `draws` are the MODEL's own: what happens next, oldest first; what the host's
  reads returned, oldest first; how many free bytes have been drawn (notes/assumptions/2.md, 4.md). -/
structure State where
  params    : Params
  /-- PHASE, and so STATUS.BUSY (R45, R25). -/
  phase     : Phase
  /-- STATUS.DONE (R26). -/
  done      : Bool
  /-- STATUS.ERR (R27). -/
  err       : Bool
  /-- STATUS.OVR (R28). -/
  ovr       : Bool
  /-- STATUS.ERRCODE (R29). -/
  errCode   : BitVec 4
  /-- STATUS.FMTCAUSE (R30). -/
  fmtCause  : BitVec 4
  /-- STATUS.GV (R31). -/
  gv        : Bool
  /-- CTRL.IRQ_EN (R32). -/
  irqEn     : Bool
  /-- SRC_LEN.LEN (R33). -/
  srcLen    : BitVec 16
  /-- SRC_BASE.BASE (R34). -/
  srcBase   : BitVec 16
  /-- DST_BASE.BASE, FRAME_AW bits in the 20 of the widest block (R35). -/
  dstBase   : BitVec 20
  /-- GEOM.WIDTH (R36). -/
  width     : BitVec 8
  /-- GEOM.HEIGHT (R36). -/
  height    : BitVec 8
  /-- QUERY.QX (R37). -/
  qx        : BitVec 8
  /-- QUERY.QY (R37). -/
  qy        : BitVec 8
  /-- RESULT (R38). -/
  result    : Word
  /-- SPR_INFO = {NFRAMES, HEIGHT, WIDTH} (R39). -/
  sprInfo   : Word
  /-- LAT.* (R44). -/
  lat       : Latches
  /-- GRID in row-major order: GRID[y][x] at index y*LW + x; a cell past the end has no value (R43). -/
  grid      : List Bool
  /-- SRC (20_memory.md R61). -/
  src       : Memory
  /-- FRAME (20_memory.md R62). -/
  frame     : Memory
  /-- What takes the next steps, oldest first. -/
  events    : List Event
  /-- What host reads returned, oldest first. -/
  replies   : List Reply
  /-- How many free FRAME bytes have been drawn (70_reset_and_hazards.md R236). -/
  draws     : Nat
deriving DecidableEq, Repr

/-- Why the machine stops. Every fault is safe: the model goes no further where the hardware would. -/
inductive Fault where
  /-- A command or a host read met a SRC byte that nothing has written since reset (20_memory.md R67).
  Raised by `buf` and by a host read of SRC. Safe. -/
  | srcByteNoValue
  /-- A host read met a FRAME byte that nothing has written since reset (20_memory.md R67). Raised by a
  host read of FRAME. Safe. -/
  | frameByteNoValue
  /-- SOLID or TILE met a grid cell without a value while STATUS.GV = 1. No reachable state raises it
  (10_state.md R31, R43; notes/assumptions/8.md). Safe. -/
  | gridCellNoValue
  /-- The sequencer met LAT.WORD_OK = 1 beside an OP and M that are no command. No reachable state raises
  it: "OP = 6 and OP = 7 never reach the case" (40_command_sequencer.md R106; notes/assumptions/9.md).
  Safe. -/
  | latchesNoCommand
deriving DecidableEq, Repr

/-- What the model gives no meaning. Every refusal is safe: nothing follows from it. -/
inductive Refusal where
  /-- An instruction whose meaning is not written yet. No arm of `exec` raises it. Safe. -/
  | notModelled (mnemonic : String)
  /-- A host access of a width or alignment that its window does not admit (20_memory.md R65). Raised by
  the bus. Safe. -/
  | accessForm
  /-- A host access to a reserved address or a reserved REG offset (20_memory.md R66). Raised by the bus.
  Safe. -/
  | reservedAddress
deriving DecidableEq, Repr

/-- The latches after reset: "unspecified; never read before written" (10_state.md R44, R46). The zeros
are the model's choice (notes/assumptions/6.md). -/
def Latches.reset : Latches :=
  { op := 0#3, m := false, wordOk := false, srcLen := 0#16, srcBase := 0#16, dstBase := 0#20,
    width := 0#8, height := 0#8, qx := 0#8, qy := 0#8 }

/-- A block with parameters `p` right after reset (10_state.md R46), with nothing waiting to happen. -/
def State.resetOf (p : Params) : State :=
  { params := p, phase := .idle, done := false, err := false, ovr := false, errCode := 0#4,
    fmtCause := 0#4, gv := false, irqEn := false, srcLen := 0#16, srcBase := 0#16, dstBase := 0#20,
    width := 0#8, height := 0#8, qx := 0#8, qy := 0#8, result := 0#32, sprInfo := 0#32,
    lat := Latches.reset, grid := [], src := [], frame := [], events := [], replies := [], draws := 0 }

/-- The machine right after reset (10_state.md R46, 70_reset_and_hazards.md R230). -/
def State.reset : State := State.resetOf Config.params

end Sys2Proof.Machine
end

