-- ==== Sys2Proof/Machine/Flags.lean ====
section
/-! DEFINITION. The error codes, the STATUS fields and the interrupt line (10_state.md R24 to R31,
60_exceptions.md R200, R201, R207). -/

namespace Sys2Proof.Machine

/-- The format causes of 60_exceptions.md R201. -/
inductive FmtCause where
  | shortHeader
  | zeroDim
  | heightNotMult8
  | nonintegralFrames
  | truncated
deriving DecidableEq, Repr

/-- The errors a command can end with (60_exceptions.md R200); a FORMAT error has a cause. -/
inductive CmdError where
  | format (c : FmtCause)
  | capacity
  | illegal
  | nogrid
  | range
deriving DecidableEq, Repr

/-- The number of a format cause in STATUS.FMTCAUSE (R201). -/
def FmtCause.bits : FmtCause → BitVec 4
  | .shortHeader       => 1#4
  | .zeroDim           => 2#4
  | .heightNotMult8    => 3#4
  | .nonintegralFrames => 4#4
  | .truncated         => 5#4

/-- The number of an error in STATUS.ERRCODE (R200). -/
def CmdError.code : CmdError → BitVec 4
  | .format _ => 1#4
  | .capacity => 2#4
  | .illegal  => 3#4
  | .nogrid   => 4#4
  | .range    => 5#4

/-- What an error leaves in STATUS.FMTCAUSE: "0 unless code is FORMAT" (00_scope.md R10, R201). -/
def CmdError.cause : CmdError → BitVec 4
  | .format c => c.bits
  | .capacity => 0#4
  | .illegal  => 0#4
  | .nogrid   => 0#4
  | .range    => 0#4

/-- PHASE = BUSY, which STATUS.BUSY shows (10_state.md R25). -/
def State.busy (s : State) : Bool := s.phase == .busy

/-- STATUS as a host reads it (10_state.md R24). -/
def State.statusWord (s : State) : Word :=
  0#19 ++ BitVec.ofBool s.gv ++ s.fmtCause ++ s.errCode ++ BitVec.ofBool s.ovr ++ BitVec.ofBool s.err
    ++ BitVec.ofBool s.done ++ BitVec.ofBool s.busy

/-- The interrupt line: `irq = CTRL.IRQ_EN & STATUS.DONE`, at all times (60_exceptions.md R207). -/
def State.irq (s : State) : Bool := s.irqEn && s.done

/-- Accept clears DONE, ERR, ERRCODE and FMTCAUSE (40_command_sequencer.md R101). -/
def State.clearStatus (s : State) : State :=
  { s with done := false, err := false, errCode := 0#4, fmtCause := 0#4 }

/-- The completion's write of the error fields (40_command_sequencer.md R103). -/
def State.setError (e : CmdError) (s : State) : State :=
  { s with err := true, errCode := e.code, fmtCause := e.cause }

end Sys2Proof.Machine
end

