-- ==== Sys2Proof/Machine/Ops.lean ====
section
/-! DEFINITION. The named operations: reading and writing the memories, the loop of the pseudocode,
accepting a command, and completing one with or without an error. -/

namespace Sys2Proof.Machine

/-- The byte at address `a`, or none where nothing has written it (20_memory.md R67). -/
def Memory.read : Memory → Nat → Option Byte
  | [], _ => none
  | (b, v) :: m, a => if a = b then some v else Memory.read m a

/-- Writes byte `v` at address `a`, keeping the addresses strictly rising. -/
def Memory.write : Memory → Nat → Byte → Memory
  | [], a, v => [(a, v)]
  | (b, w) :: m, a, v =>
    if a < b then (a, v) :: (b, w) :: m
    else if a = b then (a, v) :: m
    else (b, w) :: Memory.write m a v

/-- Every address of `m` lies above `lo` and they rise strictly. -/
def Memory.risesFrom : Nat → Memory → Bool
  | _, [] => true
  | lo, (a, _) :: m => decide (lo ≤ a) && Memory.risesFrom (a + 1) m

/-- The canonical form: strictly rising addresses. An unlisted address has no value, so no entry can
repeat what an unlisted address reads as. -/
def Memory.wf (m : Memory) : Bool := Memory.risesFrom 0 m

/-- Every address of `m` is below `size`. -/
def Memory.within (size : Nat) (m : Memory) : Bool := m.all fun c => decide (c.1 < size)

/-- `for i in 0..n` of the pseudocode (00_scope.md R10): i = 0, 1, ..., n-1, stopping at a fault. -/
def forRange {α : Type} (body : Nat → α → Except Fault α) : Nat → α → Except Fault α
  | 0, a => .ok a
  | n + 1, a =>
    match forRange body n a with
    | .ok a'   => body n a'
    | .error f => .error f

/-- DST_BASE.BASE: bits [FRAME_AW-1:0] (10_state.md R35). -/
def State.dstField (s : State) : BitVec 20 := BitVec.ofNat 20 (s.dstBase.toNat % s.params.frameSize)

/-- The latches that accept writes for command word `w` (40_command_sequencer.md R101). -/
def State.latchesFor (w : Word) (s : State) : Latches :=
  { op := (splitFields w).op, m := (splitFields w).m, wordOk := legalWord w, srcLen := s.srcLen,
    srcBase := s.srcBase, dstBase := s.dstField, width := s.width, height := s.height, qx := s.qx,
    qy := s.qy }

/-- Accept of command word `w` (40_command_sequencer.md R101). -/
def State.accept (w : Word) (s : State) : State :=
  { s.clearStatus with lat := s.latchesFor w, phase := .busy }

/-- How `Execute()` ends (40_command_sequencer.md R106): with success, with an error, or with a model
fault. The state is the one the command leaves, its completion still to come. -/
inductive CmdResult where
  | ok    (s : State)
  | error (e : CmdError) (s : State)
  | fault (f : Fault)
deriving DecidableEq, Repr

/-- What every completion does: PHASE <- IDLE and DONE <- 1 (40_command_sequencer.md R103). -/
def State.finish (s : State) : State := { s with phase := .idle, done := true }

/-- Error completion, the block's one form of an exception (60_exceptions.md R204): no state is saved, no
mode changes and control goes nowhere; STATUS records the code and the cause. There is no return from it
(R205): the next accept clears the fields. -/
def State.finishError (e : CmdError) (s : State) : State := (s.setError e).finish

/-- The sequencer's completion of a command (40_command_sequencer.md R103). -/
def complete : CmdResult → Host.Outcome State Fault Refusal
  | .ok s      => .next s.finish
  | .error e s => .next (s.finishError e)
  | .fault f   => .fault f

end Sys2Proof.Machine
end

