-- ==== Sys2Proof/Machine/Bus.lean ====
section
/-! DEFINITION. Host bus transactions: the address map, the register block and the two memory windows
(10_state.md section 2, 20_memory.md, 70_reset_and_hazards.md R235 to R237). -/

namespace Sys2Proof.Machine

/-- The registers of 10_state.md section 2. -/
inductive Reg where
  | cmd
  | status
  | ctrl
  | srcLen
  | srcBase
  | dstBase
  | geom
  | query
  | result
  | sprInfo
  | param
deriving DecidableEq, Repr

/-- The host address of a register (10_state.md section 2, 30_encoding.md R88). -/
def Reg.addr : Reg → Nat
  | .cmd     => 0x000000
  | .status  => 0x000004
  | .ctrl    => 0x000008
  | .srcLen  => 0x00000C
  | .srcBase => 0x000010
  | .dstBase => 0x000014
  | .geom    => 0x000018
  | .query   => 0x00001C
  | .result  => 0x000020
  | .sprInfo => 0x000024
  | .param   => 0x000028

/-- Where a host address lies (20_memory.md R60). -/
inductive Window where
  | reg (off : Nat)
  | src (a : Nat)
  | frame (a : Nat)
  | reserved
deriving DecidableEq, Repr

/-- The host address map (20_memory.md R60). -/
def windowAt (p : Params) (addr : Nat) : Window :=
  if addr < 0x100 then .reg addr
  else if 0x10000 ≤ addr ∧ addr < 0x20000 then .src (addr - 0x10000)
  else if 0x100000 ≤ addr ∧ addr < 0x100000 + p.frameSize then .frame (addr - 0x100000)
  else .reserved

/-- The register at a REG offset that is a multiple of 4; none for 0x2C to 0xFC (10_state.md section 2,
R41). -/
def regAt (off : Nat) : Option Reg :=
  match off with
  | 0x00 => some .cmd
  | 0x04 => some .status
  | 0x08 => some .ctrl
  | 0x0C => some .srcLen
  | 0x10 => some .srcBase
  | 0x14 => some .dstBase
  | 0x18 => some .geom
  | 0x1C => some .query
  | 0x20 => some .result
  | 0x24 => some .sprInfo
  | 0x28 => some .param
  | _    => none

/-- PARAM = {0, FRAME_AW, LH, LW} (10_state.md R40). -/
def Params.word (p : Params) : Word :=
  0#8 ++ BitVec.ofNat 8 p.frameAw ++ BitVec.ofNat 8 p.lh ++ BitVec.ofNat 8 p.lw

/-- What a read of a register returns (10_state.md R23 to R40); reserved bits read as 0 (R42). -/
def State.readReg (s : State) : Reg → Word
  | .cmd     => 0#32
  | .status  => s.statusWord
  | .ctrl    => (BitVec.ofBool s.irqEn).setWidth 32
  | .srcLen  => s.srcLen.setWidth 32
  | .srcBase => s.srcBase.setWidth 32
  | .dstBase => s.dstField.setWidth 32
  | .geom    => (s.height ++ s.width).setWidth 32
  | .query   => (s.qy ++ s.qx).setWidth 32
  | .result  => s.result
  | .sprInfo => s.sprInfo
  | .param   => Params.word s.params

/-- A write of CMD: accept while IDLE, dropped with OVR <- 1 while BUSY (40_command_sequencer.md R101,
R102). -/
def State.writeCmd (w : Word) (s : State) : State :=
  match s.phase with
  | .idle => s.accept w
  | .busy => { s with ovr := true }

/-- A write of a register (10_state.md R23 to R40). Writes of RESULT, SPR_INFO and PARAM are ignored
(R38, R39, R40), and so are writes of reserved bits (R42). -/
def State.writeReg (r : Reg) (w : Word) (s : State) : State :=
  match r with
  | .cmd     => s.writeCmd w
  | .status  => { s with done := s.done && !w.getLsbD 1 }
  | .ctrl    => { s with irqEn := w.getLsbD 0 }
  | .srcLen  => { s with srcLen := w.extractLsb' 0 16 }
  | .srcBase => { s with srcBase := w.extractLsb' 0 16 }
  | .dstBase => { s with dstBase := BitVec.ofNat 20 (w.toNat % s.params.frameSize) }
  | .geom    => { s with width := w.extractLsb' 0 8, height := w.extractLsb' 8 8 }
  | .query   => { s with qx := w.extractLsb' 0 8, qy := w.extractLsb' 8 8 }
  | .result  => s
  | .sprInfo => s
  | .param   => s

/-- A PLANE or a SPRITE is BUSY: the commands that write FRAME (70_reset_and_hazards.md R236). -/
def State.frameRacing (s : State) : Bool :=
  s.busy && s.lat.wordOk && (s.lat.op == 1#3 || s.lat.op == 2#3)

/-- The transaction returned `r` to the host. -/
def State.reply (r : Reply) (s : State) : State := { s with replies := s.replies ++ [r] }

/-- A host read of register `r`; it changes nothing (20_memory.md R69). -/
def hostReadReg (r : Reg) (s : State) : Host.Outcome State Fault Refusal :=
  .next (s.reply (.word (s.readReg r)))

/-- A host read of SRC byte `a`: its stored value in either phase (70_reset_and_hazards.md R236), a
fault where it has none (20_memory.md R67). -/
def hostReadSrc (a : Nat) (s : State) : Host.Outcome State Fault Refusal :=
  match s.src.read a with
  | some v => .next (s.reply (.byte v))
  | none   => .fault .srcByteNoValue

/-- A host read of FRAME byte `a`: a free draw while a PLANE or SPRITE is BUSY, else its stored value
(70_reset_and_hazards.md R236), a fault where it has none (20_memory.md R67). -/
def hostReadFrame (a : Nat) (s : State) : Host.Outcome State Fault Refusal :=
  if s.frameRacing then
    .next { s.reply (.byte (Config.freeByte s.draws)) with draws := s.draws + 1 }
  else
    match s.frame.read a with
    | some v => .next (s.reply (.byte v))
    | none   => .fault .frameByteNoValue

/-- A host write of SRC byte `a`: dropped with OVR <- 1 while BUSY (70_reset_and_hazards.md R235). -/
def State.writeSrc (a : Nat) (v : Byte) (s : State) : State :=
  match s.phase with
  | .idle => { s with src := s.src.write a v }
  | .busy => { s with ovr := true }

/-- A host write of FRAME byte `a`: dropped with OVR <- 1 while BUSY (70_reset_and_hazards.md R235). -/
def State.writeFrame (a : Nat) (v : Byte) (s : State) : State :=
  match s.phase with
  | .idle => { s with frame := s.frame.write a v }
  | .busy => { s with ovr := true }

/-- What an access that its window does not admit comes to: refused, as a reserved address where there is
no window and as a wrong width otherwise (20_memory.md R65, R66). -/
def refuseAccess (p : Params) (addr : BitVec 24) : Host.Outcome State Fault Refusal :=
  match windowAt p addr.toNat with
  | .reserved => .refused .reservedAddress
  | .reg _    => .refused .accessForm
  | .src _    => .refused .accessForm
  | .frame _  => .refused .accessForm

/-- A 32-bit access: to a register at an offset that is a multiple of 4, refused elsewhere
(20_memory.md R65, R66). -/
def busAt32 (addr : BitVec 24) (s : State) (onReg : Reg → Host.Outcome State Fault Refusal) :
    Host.Outcome State Fault Refusal :=
  match windowAt s.params addr.toNat with
  | .reg off =>
    if off % 4 = 0 then
      match regAt off with
      | some r => onReg r
      | none   => .refused .reservedAddress
    else .refused .accessForm
  | .src _    => refuseAccess s.params addr
  | .frame _  => refuseAccess s.params addr
  | .reserved => refuseAccess s.params addr

/-- An 8-bit access: to a byte of SRC or FRAME, refused elsewhere (20_memory.md R65, R66). -/
def busAt8 (addr : BitVec 24) (s : State) (onSrc onFrame : Nat → Host.Outcome State Fault Refusal) :
    Host.Outcome State Fault Refusal :=
  match windowAt s.params addr.toNat with
  | .src a    => onSrc a
  | .frame a  => onFrame a
  | .reg _    => refuseAccess s.params addr
  | .reserved => refuseAccess s.params addr

/-- One host bus transaction, one indivisible step (20_memory.md R68). No window admits a 16-bit access
(R65). -/
def busAccess (acc : HostAccess) (s : State) : Host.Outcome State Fault Refusal :=
  match acc with
  | .read8 addr      => busAt8 addr s (fun a => hostReadSrc a s) (fun a => hostReadFrame a s)
  | .read16 addr     => refuseAccess s.params addr
  | .read32 addr     => busAt32 addr s (fun r => hostReadReg r s)
  | .write8 addr v   =>
    busAt8 addr s (fun a => .next (s.writeSrc a v)) (fun a => .next (s.writeFrame a v))
  | .write16 addr _  => refuseAccess s.params addr
  | .write32 addr w  => busAt32 addr s (fun r => .next (s.writeReg r w))

end Sys2Proof.Machine
end

