-- ==== Sys2Proof/Machine/Operands.lean ====
section
/-! DEFINITION. The operands a command forms from the latches (30_encoding.md R85) and the declared buffer
(20_memory.md R63). After this file every value is a natural number or an integer (00_scope.md R9). -/

namespace Sys2Proof.Machine

/-- Buffer start: LAT.SRC_BASE, unsigned. -/
def State.bufStart (s : State) : Nat := s.lat.srcBase.toNat

/-- Buffer length: LAT.SRC_LEN, unsigned. -/
def State.bufLen (s : State) : Nat := s.lat.srcLen.toNat

/-- Output start: LAT.DST_BASE, unsigned. -/
def State.outStart (s : State) : Nat := s.lat.dstBase.toNat

/-- PLANE's width W = zext(LAT.WIDTH). -/
def State.planeW (s : State) : Nat := s.lat.width.toNat

/-- PLANE's height H = zext(LAT.HEIGHT). -/
def State.planeH (s : State) : Nat := s.lat.height.toNat

/-- The query's x = sint(LAT.QX). -/
def State.queryX (s : State) : Int := s.lat.qx.toInt

/-- The query's y = sint(LAT.QY). -/
def State.queryY (s : State) : Int := s.lat.qy.toInt

/-- `LAT.SRC_BASE + LAT.SRC_LEN > 65536`: the declared buffer passes the end of SRC (R63). -/
def State.pastSrc (s : State) : Bool := decide (s.bufStart + s.bufLen > srcSize)

/-- `Buf(k) = MemRead(SRC, LAT.SRC_BASE + k, 1)` (R63), a fault where the byte has no value (R67). -/
def State.buf (s : State) (k : Nat) : Except Fault Byte :=
  match s.src.read (s.bufStart + k) with
  | some v => .ok v
  | none   => .error .srcByteNoValue

end Sys2Proof.Machine
end

