-- ==== Sys2Proof/Machine/Sequencer.lean ====
section
/-! DEFINITION. The commands of the sequencer: NOP and the illegal command (40_command_sequencer.md R107,
R108). -/

namespace Sys2Proof.Machine

/-- NOP: `RESULT <- 0; return Ok` (R107). -/
def nop (s : State) : CmdResult := .ok { s with result := 0#32 }

/-- NOP, run to its completion (R107). -/
def execNop (s : State) : Host.Outcome State Fault Refusal := complete (nop s)

/-- An illegal command: `return Error(ILLEGAL, 0)` (R108). -/
def illegal (s : State) : CmdResult := .error .illegal s

/-- An illegal command, run to its completion (R108). -/
def execIllegal (s : State) : Host.Outcome State Fault Refusal := complete (illegal s)

end Sys2Proof.Machine
end

