-- ==== Sys2Proof/Machine/Unpacker.lean ====
section
/-! DEFINITION. The bit-plane unpacker: UNPACK8, Unpack, PLANE and PLANE.M (41_bitplane_unpacker.md). -/

namespace Sys2Proof.Machine

/-- Sample s[b] of `UNPACK8(v, m)` (R120): 0xFF where bit b of v, exclusive-ored with m, is 1. -/
def unpack8 (v : Byte) (m : Bool) (b : Nat) : Byte :=
  if v.getLsbD b ^^ m then 0xFF#8 else 0x00#8

/-- `Unpack(k0, W, H, m, d0)` (R122) on the FRAME memory `frame`; `s` supplies the declared buffer. -/
def unpack (s : State) (k0 W H : Nat) (m : Bool) (d0 : Nat) (frame : Memory) : Except Fault Memory :=
  forRange (fun x fr =>
    forRange (fun r fr =>
      match s.buf (k0 + r * W + x) with
      | .error f => .error f
      | .ok v => forRange (fun b fr => .ok (fr.write (d0 + (r * 8 + b) * W + x) (unpack8 v m b))) 8 fr)
      (H / 8) fr)
    W frame

/-- `Plane(m)` (R123). -/
def plane (m : Bool) (s : State) : CmdResult :=
  if s.pastSrc then .error .range s
  else if s.planeW = 0 ∨ s.planeH = 0 then .error (.format .zeroDim) s
  else if s.planeH % 8 ≠ 0 then .error (.format .heightNotMult8) s
  else if s.planeW * s.planeH / 8 > s.bufLen then .error (.format .truncated) s
  else if s.outStart + s.planeW * s.planeH > s.params.frameSize then .error .capacity s
  else
    match unpack s 0 s.planeW s.planeH m s.outStart s.frame with
    | .error f => .fault f
    | .ok fr   => .ok { s with frame := fr, result := BitVec.ofNat 32 (s.planeW * s.planeH) }

/-- PLANE, run to its completion (R123 with m = 0). -/
def execPlane (s : State) : Host.Outcome State Fault Refusal := complete (plane false s)

/-- PLANE.M, run to its completion (R123 with m = 1). -/
def execPlaneM (s : State) : Host.Outcome State Fault Refusal := complete (plane true s)

end Sys2Proof.Machine
end

