-- ==== Sys2Proof/Machine/Sprite.lean ====
section
/-! DEFINITION. The sprite decoder: SPRITE and SPRITE.M (42_sprite_decoder.md). -/

namespace Sys2Proof.Machine

/-- `fs`, the bytes of one packed frame (R141). -/
def frameBytes (W H : Nat) : Nat := W * H / 8

/-- `n`, the number of frames in the declared buffer (R141). -/
def State.frameCount (s : State) (W H : Nat) : Nat := (s.bufLen - 2) / frameBytes W H

/-- `SPR_INFO <- {n[15:0], H[7:0], W[7:0]}` (R142). -/
def sprInfoWord (n W H : Nat) : Word := BitVec.ofNat 16 n ++ BitVec.ofNat 8 H ++ BitVec.ofNat 8 W

/-- The loop of SPRITE: frame i of n goes from declared-buffer offset 2 + i*fs to FRAME address
d0 + i*W*H (R142, R143). -/
def unpackFrames (s : State) (n W H : Nat) (m : Bool) : Except Fault Memory :=
  forRange (fun i fr => unpack s (2 + i * frameBytes W H) W H m (s.outStart + i * W * H) fr) n s.frame

/-- `Sprite(m)` once the header bytes W and H are read (R142). -/
def spriteBody (m : Bool) (W H : Nat) (s : State) : CmdResult :=
  if W = 0 ∨ H = 0 then .error (.format .zeroDim) s
  else if H % 8 ≠ 0 then .error (.format .heightNotMult8) s
  else if (s.bufLen - 2) % frameBytes W H ≠ 0 then .error (.format .nonintegralFrames) s
  else if s.outStart + s.frameCount W H * W * H > s.params.frameSize then .error .capacity s
  else
    match unpackFrames s (s.frameCount W H) W H m with
    | .error f => .fault f
    | .ok fr   =>
      .ok { s with frame := fr, result := BitVec.ofNat 32 (s.frameCount W H),
                   sprInfo := sprInfoWord (s.frameCount W H) W H }

/-- `Sprite(m)` (R142). -/
def sprite (m : Bool) (s : State) : CmdResult :=
  if s.pastSrc then .error .range s
  else if s.bufLen < 2 then .error (.format .shortHeader) s
  else
    match s.buf 0, s.buf 1 with
    | .ok w, .ok h      => spriteBody m w.toNat h.toNat s
    | .error f, _       => .fault f
    | .ok _, .error f   => .fault f

/-- SPRITE, run to its completion (R142 with m = 0). -/
def execSprite (s : State) : Host.Outcome State Fault Refusal := complete (sprite false s)

/-- SPRITE.M, run to its completion (R142 with m = 1). -/
def execSpriteM (s : State) : Host.Outcome State Fault Refusal := complete (sprite true s)

end Sys2Proof.Machine
end

