-- ==== Sys2Proof/Machine/Tiler.lean ====
section
/-! DEFINITION. The tile-map auto-tiler: CELLS, SOLID and TILE (43_tilemap_auto_tiler.md). -/

namespace Sys2Proof.Machine

/-- The bit of the occupancy region with index k: `(Buf(k div 8) >> (k mod 8)) & 1` (R160). -/
def State.cellBit (s : State) (k : Nat) : Except Fault Bool :=
  match s.buf (k / 8) with
  | .ok v    => .ok (v.getLsbD (k % 8))
  | .error f => .error f

/-- The grid CELLS loads: cell (x, y) is bit y*LW + x of the occupancy region, so the cells in row-major
order are the first LW*LH bits (R160, R161). -/
def loadCells (s : State) : Except Fault (List Bool) :=
  forRange (fun k cells =>
    match s.cellBit k with
    | .ok c    => .ok (cells ++ [c])
    | .error f => .error f)
    (s.params.lw * s.params.lh) []

/-- `Cells()` (R161). -/
def cells (s : State) : CmdResult :=
  if s.pastSrc then .error .range { s with gv := false }
  else if s.bufLen < s.params.lcb then .error (.format .truncated) { s with gv := false }
  else
    match loadCells s with
    | .error f => .fault f
    | .ok g    =>
      .ok { s with grid := g, gv := true, result := BitVec.ofNat 32 (s.bufStart + s.params.lcb) }

/-- GRID[y][x] for a cell of the grid, none where it has no value (10_state.md R43). -/
def gridCell (p : Params) (grid : List Bool) (x y : Int) : Option Bool :=
  grid[(y * p.lw + x).toNat]?

/-- `hoob <- (x < 0 or x >= LW)`: horizontally out of bounds (R162). -/
abbrev hOob (p : Params) (x : Int) : Prop := x < 0 ∨ x ≥ p.lw

/-- `voob <- (y < 0 or y >= LH)`: vertically out of bounds (R162). -/
abbrev vOob (p : Params) (y : Int) : Prop := y < 0 ∨ y ≥ p.lh

/-- `solidAt(x, y)` for integer coordinates (R162); none where it meets a cell without a value. -/
def solidAt (p : Params) (grid : List Bool) (x y : Int) : Option Bool :=
  if hOob p x ∧ vOob p y then some p.cornerOobSolid
  else if hOob p x then some true
  else if vOob p y then some false
  else gridCell p grid x y

/-- `right | (top << 1) | (left << 2) | (bottom << 3)` (R163). -/
def tileIndex (right top left bottom : Bool) : Nat :=
  right.toNat ||| (top.toNat <<< 1) ||| (left.toNat <<< 2) ||| (bottom.toNat <<< 3)

/-- `tileIndexAt(x, y)` for integer coordinates (R163); none where it meets a cell without a value. -/
def tileIndexAt (p : Params) (grid : List Bool) (x y : Int) : Option Nat :=
  match solidAt p grid x y with
  | none       => none
  | some false => some 16
  | some true  =>
    match solidAt p grid (x + 1) y, solidAt p grid x (y - 1), solidAt p grid (x - 1) y,
        solidAt p grid x (y + 1) with
    | some right, some top, some left, some bottom => some (tileIndex right top left bottom)
    | _, _, _, _ => none

/-- `Solid()` (R164). -/
def solid (s : State) : CmdResult :=
  if s.gv then
    match solidAt s.params s.grid s.queryX s.queryY with
    | some b => .ok { s with result := BitVec.ofNat 32 b.toNat }
    | none   => .fault .gridCellNoValue
  else .error .nogrid s

/-- `Tile()` (R165). -/
def tile (s : State) : CmdResult :=
  if s.gv then
    match tileIndexAt s.params s.grid s.queryX s.queryY with
    | some t => .ok { s with result := BitVec.ofNat 32 t }
    | none   => .fault .gridCellNoValue
  else .error .nogrid s

/-- CELLS, run to its completion (R161). -/
def execCells (s : State) : Host.Outcome State Fault Refusal := complete (cells s)

/-- SOLID, run to its completion (R164). -/
def execSolid (s : State) : Host.Outcome State Fault Refusal := complete (solid s)

/-- TILE, run to its completion (R165). -/
def execTile (s : State) : Host.Outcome State Fault Refusal := complete (tile s)

end Sys2Proof.Machine
end

