-- ==== Sys2Proof/Machine/Dispatch.lean ====
section
/-! DEFINITION. `Execute()` and completion for a legal command word (40_command_sequencer.md R103, R106):
one arm per command. -/

namespace Sys2Proof.Machine

def exec (i : Instr) (s : State) : Host.Outcome State Fault Refusal :=
  match i with
  | .nop => Sys2Proof.Machine.execNop s
  | .plane => Sys2Proof.Machine.execPlane s
  | .planeM => Sys2Proof.Machine.execPlaneM s
  | .sprite => Sys2Proof.Machine.execSprite s
  | .spriteM => Sys2Proof.Machine.execSpriteM s
  | .cells => Sys2Proof.Machine.execCells s
  | .solid => Sys2Proof.Machine.execSolid s
  | .tile => Sys2Proof.Machine.execTile s

end Sys2Proof.Machine
end

