-- ==== Sys2Proof/Machine/Run.lean ====
section
/-! DEFINITION. What the agents do: the sequencer's `complete` step, a host transaction, the reset input
(40_command_sequencer.md R100 to R106, 70_reset_and_hazards.md R230). -/

namespace Sys2Proof.Machine

/-- The command word the latches hold, where its reserved bits were 0 (10_state.md R23, R44). -/
def Latches.word (l : Latches) : Word := joinFields ⟨l.op, l.m, 0#28⟩

/-- `Execute()` of the latched command and its completion (40_command_sequencer.md R103, R106). -/
def runLatched (s : State) : Host.Outcome State Fault Refusal :=
  if s.lat.wordOk then
    match decode s.lat.word with
    | .ok i    => exec i s
    | .error _ => .fault .latchesNoCommand
  else execIllegal s

/-- The sequencer's turn: `complete` where PHASE = BUSY; where PHASE = IDLE it is not enabled and nothing
happens (40_command_sequencer.md R100, R103). -/
def sequencerStep (s : State) : Host.Outcome State Fault Refusal :=
  match s.phase with
  | .busy => runLatched s
  | .idle => .next s

/-- The reset input: every piece of the block's state takes its reset value (70_reset_and_hazards.md
R230, R231). The parameters are the block's own; the outside world's record goes on. -/
def State.resetInput (s : State) : State :=
  { State.resetOf s.params with events := s.events, replies := s.replies, draws := s.draws }

/-- What one event does. -/
def act (e : Event) (s : State) : Host.Outcome State Fault Refusal :=
  match e with
  | .host a    => busAccess a s
  | .sequencer => sequencerStep s
  | .reset     => .next s.resetInput

/-- One step: the oldest waiting event, or, where none waits, the sequencer's turn, so that an accepted
command completes when the host has nothing more to do (40_command_sequencer.md R105). -/
def nextStep (s : State) : Host.Outcome State Fault Refusal :=
  match s.events with
  | []        => sequencerStep s
  | e :: rest => act e { s with events := rest }

/-- The state in which the sequencer's turn comes next and runs command word `w`: the state after the host
has written `w` to CMD (40_command_sequencer.md R101), with the sequencer to take the next step. -/
def State.withCommand (s : State) (w : Word) : State :=
  { s.accept w with events := .sequencer :: s.events }

end Sys2Proof.Machine
end

