-- ==== Sys2Proof/Machine/Step.lean ====
section
/-! DEFINITION. The step of the machine, and how a command word is placed where the next step runs it. -/

namespace Sys2Proof.Machine

/-- One step of the machine (40_command_sequencer.md R100). -/
def step (s : State) : Host.Outcome State Fault Refusal := nextStep s

/-- `s` with the command word of an opcode-table row latched, so that the very next step runs it. The block
fetches nothing (10_state.md R22): a command comes to run by a host write of CMD, which this state stands
right after (notes/assumptions/11.md). -/
def State.withFetchWord (s : State) (nbits w : Nat) : State :=
  s.withCommand (BitVec.ofNat 32 (w % 2 ^ nbits))

end Sys2Proof.Machine
end

