-- ==== Sys2Proof/Machine/HostSyntax.lean ====
section
/-! DEFINITION. The host syntax: host instructions, their encoding lines and the pseudo-instructions
(30_encoding.md R86 to R88). -/

namespace Sys2Proof.Machine

/-- A host instruction, one bus transaction each (R86). A SRC address has the 16 bits of its window; a FRAME
address has the 20 bits of the widest block, and the bus refuses it from FRAME_SIZE on. -/
inductive HostInstr where
  /-- `wr REG, imm32`. -/
  | wr (r : Reg) (imm : Word)
  /-- `rd REG`. -/
  | rd (r : Reg)
  /-- `wb SRC:a, imm8`. -/
  | wbSrc (a : BitVec 16) (imm : Byte)
  /-- `rb SRC:a`. -/
  | rbSrc (a : BitVec 16)
  /-- `wb FRAME:a, imm8`. -/
  | wbFrame (a : BitVec 20) (imm : Byte)
  /-- `rb FRAME:a`. -/
  | rbFrame (a : BitVec 20)
deriving DecidableEq, Repr

/-- The host address of SRC byte `a` (20_memory.md R60). -/
def srcAddr (a : BitVec 16) : BitVec 24 := BitVec.ofNat 24 (0x010000 + a.toNat)

/-- The host address of FRAME byte `a` (20_memory.md R60). -/
def frameAddr (a : BitVec 20) : BitVec 24 := BitVec.ofNat 24 (0x100000 + a.toNat)

/-- The host address of a register, as the bus carries it (R88). -/
def Reg.hostAddr (r : Reg) : BitVec 24 := BitVec.ofNat 24 r.addr

/-- The transaction of a host instruction (R86). -/
def HostInstr.access : HostInstr → HostAccess
  | .wr r w      => .write32 r.hostAddr w
  | .rd r        => .read32 r.hostAddr
  | .wbSrc a v   => .write8 (srcAddr a) v
  | .rbSrc a     => .read8 (srcAddr a)
  | .wbFrame a v => .write8 (frameAddr a) v
  | .rbFrame a   => .read8 (frameAddr a)

/-- One hexadecimal digit, capital. -/
def hexDigit (n : Nat) : Char := if n < 10 then Char.ofNat (48 + n) else Char.ofNat (55 + n)

/-- `n` as `d` hexadecimal digits, the most significant first. -/
def hexDigits : Nat → Nat → List Char
  | 0, _     => []
  | d + 1, n => hexDigits d (n / 16) ++ [hexDigit (n % 16)]

/-- The encoding line of a host instruction: the address in 6 hexadecimal digits, the data in 8 or 2 (R86). -/
def HostInstr.line : HostInstr → List Char
  | .wr r w      => "W32 ".toList ++ hexDigits 6 r.addr ++ ' ' :: hexDigits 8 w.toNat
  | .rd r        => "R32 ".toList ++ hexDigits 6 r.addr
  | .wbSrc a v   => "W8 ".toList ++ hexDigits 6 (srcAddr a).toNat ++ ' ' :: hexDigits 2 v.toNat
  | .rbSrc a     => "R8 ".toList ++ hexDigits 6 (srcAddr a).toNat
  | .wbFrame a v => "W8 ".toList ++ hexDigits 6 (frameAddr a).toNat ++ ' ' :: hexDigits 2 v.toNat
  | .rbFrame a   => "R8 ".toList ++ hexDigits 6 (frameAddr a).toNat

/-- The pseudo-instructions that expand to a fixed list of host instructions (R87). -/
inductive Pseudo where
  /-- `cmd <command>`. -/
  | cmd (i : Instr)
  /-- `ack`. -/
  | ack
  /-- `geom W, H`, with 0 <= W, H <= 255. -/
  | geom (w h : Nat)
  /-- `query X, Y`, with -128 <= X, Y <= 127. -/
  | query (x y : Int)
  /-- `src BASE, LEN`. -/
  | src (base len : Nat)
  /-- `ldsrc a, b0, ..., bn`. -/
  | ldsrc (a : Nat) (bytes : List Byte)
deriving DecidableEq, Repr

/-- The expansion of `ldsrc`: one byte write after another (R87). -/
def loadBytes : Nat → List Byte → List HostInstr
  | _, []      => []
  | a, v :: vs => .wbSrc (BitVec.ofNat 16 a) v :: loadBytes (a + 1) vs

/-- The expansions of R87. -/
def Pseudo.expand : Pseudo → List HostInstr
  | .cmd i        => [.wr .cmd (encode i)]
  | .ack          => [.wr .status 0x00000002#32]
  | .geom w h     => [.wr .geom (BitVec.ofNat 32 (h * 256 + w))]
  | .query x y    => [.wr .query (BitVec.ofNat 32 ((y % 256).toNat * 256 + (x % 256).toNat))]
  | .src base len => [.wr .srcBase (BitVec.ofNat 32 base), .wr .srcLen (BitVec.ofNat 32 len)]
  | .ldsrc a vs   => loadBytes a vs

/-- The host issuing instructions, one transaction a step. -/
def hostEvents (l : List HostInstr) : List Event := l.map fun h => .host h.access

/-- One way `wait` can go (R87): the host polls STATUS `n` times and reads BUSY = 1, the sequencer completes
the command, and the next poll reads BUSY = 0. `wait` is the host's loop, and each `n` is one interleaving
that 40_command_sequencer.md R100 allows. -/
def waitEvents (n : Nat) : List Event :=
  List.replicate n (.host (HostInstr.rd .status).access) ++
    [.sequencer, .host (HostInstr.rd .status).access]

end Sys2Proof.Machine
end

