-- ==== Sys2Proof/Safety.lean ====
section
/-! DEFINITION. The terms the claims are stated in: the invariant of the machine, whose turn it is, what a
command leaves alone, and when a run has ended. -/

namespace Sys2Proof

/-- PLANE, PLANE.M, SPRITE and SPRITE.M: the commands that write FRAME (20_memory.md R62). -/
abbrev Instr.writesFrame (i : Instr) : Prop := i = .plane ∨ i = .planeM ∨ i = .sprite ∨ i = .spriteM

/-- SPRITE and SPRITE.M: the commands that write SPR_INFO (10_state.md R39). -/
abbrev Instr.writesInfo (i : Instr) : Prop := i = .sprite ∨ i = .spriteM

end Sys2Proof

namespace Sys2Proof.Machine

/-- What holds of the block in every reachable state. -/
structure State.Inv (s : State) : Prop where
  /-- SRC is in canonical form and lies in 0..65535 (20_memory.md R61). -/
  srcWf      : s.src.wf = true
  srcWithin  : s.src.within srcSize = true
  /-- FRAME is in canonical form and lies in 0..FRAME_SIZE-1 (20_memory.md R62). -/
  frameWf     : s.frame.wf = true
  frameWithin : s.frame.within s.params.frameSize = true
  /-- DST_BASE and its latch are FRAME_AW bits wide, whatever their values (10_state.md R35, R44). -/
  dstWithin    : s.dstBase.toNat < s.params.frameSize
  latDstWithin : s.lat.dstBase.toNat < s.params.frameSize
  /-- STATUS.ERR equals (STATUS.ERRCODE != 0) (10_state.md R27). -/
  errIff : s.err = (s.errCode != 0#4)
  /-- Codes 6 to 15 and causes 6 to 15 are never written (10_state.md R29, R30). -/
  codeLegal  : s.errCode.toNat ≤ 5
  causeLegal : s.fmtCause.toNat ≤ 5
  /-- FMTCAUSE is nonzero only when ERRCODE = 1 (10_state.md R30). -/
  causeFormat : s.fmtCause ≠ 0#4 → s.errCode = 1#4
  /-- DONE and the error fields read 0 while BUSY (20_memory.md R70). -/
  busyClear : s.phase = .busy → s.done = false ∧ s.errCode = 0#4
  /-- While BUSY a latched legal word is a command (40_command_sequencer.md R101, R106). Before the first
  accept the latches are unspecified (10_state.md R46), and nothing is said of them but their widths. -/
  latLegal : s.phase = .busy → s.lat.wordOk = true → ∃ i, decode s.lat.word = .ok i
  /-- With GV = 1 every cell of GRID has a value (10_state.md R31, R43). -/
  gridLoaded : s.gv = true → s.grid.length = s.params.lw * s.params.lh

/-- The next step is the sequencer's: PHASE = BUSY, and the oldest event is its turn or none waits (that an
empty script gives it the turn is the model's choice, notes/assumptions/2.md). -/
def State.SequencerTurn (s : State) : Prop :=
  s.phase = .busy ∧ (s.events = [] ∨ s.events.head? = some .sequencer)

/-- `s` once its oldest event is taken. -/
def State.popped (s : State) : State := { s with events := s.events.tail }

/-- The latched command is the legal command `i`. -/
def State.latched (s : State) (i : Instr) : Prop :=
  s.lat.wordOk = true ∧ decode s.lat.word = .ok i

/-- SRC bytes `a` to `a + n - 1` have a value. -/
def State.srcWritten (s : State) (a n : Nat) : Prop := ∀ k, k < n → (s.src.read (a + k)).isSome = true

/-- `s` completed without an error (40_command_sequencer.md R103). -/
def State.succeeded (s : State) : State := { s with phase := .idle, done := true }

/-- `s` completed with error `code` and cause `cause` (60_exceptions.md R204). -/
def State.failed (s : State) (code cause : BitVec 4) : State :=
  { s with phase := .idle, done := true, err := true, errCode := code, fmtCause := cause }

/-- PLANE or PLANE.M, SPRITE or SPRITE.M, by the polarity flag (30_encoding.md R82). -/
def planeInstr (m : Bool) : Instr := if m then .planeM else .plane
def spriteInstr (m : Bool) : Instr := if m then .spriteM else .sprite

/-- The oldest event of `s` is the host access `a`. -/
def State.hostNext (s : State) (a : HostAccess) : Prop := s.events.head? = some (.host a)

/-- A run has ended: the host has nothing more to do and PHASE = IDLE (40_command_sequencer.md R109). -/
def State.ended (s : State) : Prop := s.events = [] ∧ s.phase = .idle

/-- A safe run of `n` steps from `s` that ends in `t`: no fault, no refusal (R109). -/
def SafeRun (n : Nat) (s t : State) : Prop := Sys2Proof.core.run n s = .next t ∧ t.ended

end Sys2Proof.Machine
end

