-- ==== Sys2Proof/Certificates/Slice0/Obligations.lean ====
section
/-! DEFINITION. The statements about the machine, one definition each; OBLIGATIONS.json lists them. A
statement whose conclusion is an equation of whole states is at once a result, a completion and a frame:
every field it does not name is unchanged. -/

open Sys2Proof Sys2Proof.Machine

/-! ## The command word -/

/-- Words written out from the table of 30_encoding.md R83 decode to their commands, and three words outside
it are rejected by name. -/
def Obligations.TableWordsDecodeToTheirCommands : Prop :=
  decode 0x00000000#32 = .ok .nop ∧ decode 0x00000001#32 = .ok .plane ∧
  decode 0x00000009#32 = .ok .planeM ∧ decode 0x00000002#32 = .ok .sprite ∧
  decode 0x0000000A#32 = .ok .spriteM ∧ decode 0x00000003#32 = .ok .cells ∧
  decode 0x00000004#32 = .ok .solid ∧ decode 0x00000005#32 = .ok .tile ∧
  decode 0x00000006#32 = .error .reservedOp ∧ decode 0x00000008#32 = .error .maskNotAllowed ∧
  decode 0x00000011#32 = .error .reservedBits

/-- Every instruction is well formed and the decoder reads it back from its word. -/
def Obligations.DecodingAnEncodedInstructionGivesItBack : Prop :=
  ∀ i : Instr, i.wf = true ∧ decode (encode i) = .ok i

/-- The full decode of R83, over all 2^32 words: each legal word is the only word of its command, and a word
is illegal exactly on R83's three conditions. -/
def Obligations.DecodeIsExactlyTheFullDecodeTable : Prop :=
  ∀ w : Word,
    (decode w = .ok .nop ↔ w = 0x00000000#32) ∧ (decode w = .ok .plane ↔ w = 0x00000001#32) ∧
    (decode w = .ok .planeM ↔ w = 0x00000009#32) ∧ (decode w = .ok .sprite ↔ w = 0x00000002#32) ∧
    (decode w = .ok .spriteM ↔ w = 0x0000000A#32) ∧ (decode w = .ok .cells ↔ w = 0x00000003#32) ∧
    (decode w = .ok .solid ↔ w = 0x00000004#32) ∧ (decode w = .ok .tile ↔ w = 0x00000005#32) ∧
    ((∃ e, decode w = .error e) ↔
      w.extractLsb' 4 28 ≠ 0#28 ∨ w.extractLsb' 0 3 = 6#3 ∨ w.extractLsb' 0 3 = 7#3 ∨
        (w.getLsbD 3 = true ∧ w.extractLsb' 0 3 ≠ 1#3 ∧ w.extractLsb' 0 3 ≠ 2#3))

/-! ## The sequencer -/

/-- A step runs the decoded instruction: at the sequencer's turn (PHASE = BUSY and no other event before it)
the step is `exec` of the latched command, at the state whose oldest event is taken. There is no program
counter and nothing else is added around `exec` (10_state.md R22, 40_command_sequencer.md R103, R106). Who
steps next is read from the model's event script (notes/assumptions/2.md). -/
def Obligations.StepRunsTheLatchedCommand : Prop :=
  ∀ (s : State) (i : Instr), s.SequencerTurn → s.latched i → step s = exec i s.popped

/-- A command word placed for the next step is run by it, from the state its accept leaves. How a word is
placed is the model's choice (notes/assumptions/11.md). -/
def Obligations.PlacedWordIsRunByTheNextStep : Prop :=
  ∀ (s : State) (w : Word) (i : Instr), decode w = .ok i →
    step (s.withFetchWord 32 w.toNat) = exec i (s.accept w)

/-- The host writes a legal word to CMD while IDLE and the sequencer takes the next turn: the two steps
together run that command from the state accept leaves (R101, R103). -/
def Obligations.CommandWriteThenSequencerTurnRunsIt : Prop :=
  ∀ (s : State) (w : Word) (i : Instr) (addr : BitVec 24) (rest : List Event),
    s.phase = .idle → addr.toNat = 0x000000 → decode w = .ok i →
    s.events = .host (.write32 addr w) :: .sequencer :: rest →
    Sys2Proof.core.run 2 s = exec i { s.accept w with events := rest }

/-- Accept (R101): a write of CMD while IDLE latches the fields of the word, whether it is one of the eight
legal words, and the operand registers; clears DONE, ERR, ERRCODE and FMTCAUSE; and sets PHASE = BUSY.
The premise says that DST_BASE is FRAME_AW bits wide. -/
def Obligations.AcceptLatchesTheWordAndTheOperands : Prop :=
  ∀ (s : State) (w : Word) (addr : BitVec 24),
    s.phase = .idle → s.hostNext (.write32 addr w) → addr.toNat = 0x000000 →
    s.dstBase.toNat < 2 ^ s.params.frameAw →
    step s = .next { s.popped with
      phase := .busy, done := false, err := false, errCode := 0#4, fmtCause := 0#4,
      lat := { op := w.extractLsb' 0 3, m := w.getLsbD 3,
               wordOk := decide (w ∈ [0x00000000#32, 0x00000001#32, 0x00000009#32, 0x00000002#32,
                 0x0000000A#32, 0x00000003#32, 0x00000004#32, 0x00000005#32]),
               srcLen := s.srcLen, srcBase := s.srcBase, dstBase := s.dstBase, width := s.width,
               height := s.height, qx := s.qx, qy := s.qy } }

/-- R102: a write of CMD while BUSY is dropped, so that no latch changes and the running command goes on; it
sets OVR, which stays 1 until reset. -/
def Obligations.CommandWriteWhileBusyIsDropped : Prop :=
  (∀ (s : State) (w : Word) (addr : BitVec 24),
    s.phase = .busy → s.hostNext (.write32 addr w) → addr.toNat = 0x000000 →
    step s = .next { s.popped with ovr := true }) ∧
  (∀ s t : State, s.ovr = true → step s = .next t → s.events.head? ≠ some .reset → t.ovr = true)

/-- R108: every CMD word other than the eight legal words is accepted, does nothing and completes with error
ILLEGAL. -/
def Obligations.IllegalWordCompletesWithErrorIllegal : Prop :=
  ∀ (s : State) (w : Word) (addr : BitVec 24) (rest : List Event),
    s.phase = .idle → addr.toNat = 0x000000 →
    w ∉ [0x00000000#32, 0x00000001#32, 0x00000009#32, 0x00000002#32, 0x0000000A#32, 0x00000003#32,
      0x00000004#32, 0x00000005#32] →
    s.events = .host (.write32 addr w) :: .sequencer :: rest →
    ∃ l, Sys2Proof.core.run 2 s = .next { s with
      events := rest, lat := l, phase := .idle, done := true, err := true, errCode := 3#4,
      fmtCause := 0#4 }

/-- R107: NOP, run while BUSY, leaves RESULT = 0, DONE = 1 and the error fields clear, and changes nothing
else. -/
def Obligations.NopCompletesAndClearsResult : Prop :=
  encode .nop = 0x00000000#32 ∧
  ∀ s : State, s.Inv → s.phase = .busy →
    exec .nop s = .next { s with
      phase := .idle, done := true, err := false, errCode := 0#4, fmtCause := 0#4, result := 0#32 }

/-! ## The bit-plane unpacker -/

/-- R120: sample b is 0xFF where bit b of v, exclusive-ored with m, is 1, else 0x00; and masked output is the
bitwise complement of unmasked output. -/
def Obligations.UnpackedSampleIsWhiteWhereTheBitDiffersFromTheMask : Prop :=
  ∀ (v : Byte) (b : Nat), b < 8 →
    (∀ m, unpack8 v m b = if ((v >>> b) &&& 1#8 = 1#8) ≠ (m = true) then 0xFF#8 else 0x00#8) ∧
    unpack8 v true b = ~~~ unpack8 v false b

/-- PLANE (m = 0) and PLANE.M (m = 1), run while BUSY, complete on every frame that passes R123's checks and
whose packed bytes have a value: FRAME takes the closed form of R124, RESULT is W*H, DONE is 1, the error
fields are clear, and every FRAME byte outside d0..d0+W*H-1 and every other field is unchanged. -/
def Obligations.PlaneWritesTheUnpackedFrame : Prop :=
  ∀ (m : Bool) (s : State) (W H : Nat),
    s.Inv → s.phase = .busy → W = s.lat.width.toNat → H = s.lat.height.toNat →
    s.lat.srcBase.toNat + s.lat.srcLen.toNat ≤ 65536 → W ≠ 0 → H ≠ 0 → H % 8 = 0 →
    W * H / 8 ≤ s.lat.srcLen.toNat → s.lat.dstBase.toNat + W * H ≤ 2 ^ s.params.frameAw →
    s.srcWritten s.lat.srcBase.toNat (W * H / 8) →
    ∃ fr, exec (planeInstr m) s = .next { s with
        phase := .idle, done := true, err := false, errCode := 0#4, fmtCause := 0#4,
        frame := fr, result := BitVec.ofNat 32 (W * H) } ∧
      (∀ x y, x < W → y < H → ∃ v, s.src.read (s.lat.srcBase.toNat + (y / 8 * W + x)) = some v ∧
        fr.read (s.lat.dstBase.toNat + y * W + x) =
          some (if (v.getLsbD (y % 8) ^^ m) = true then 0xFF#8 else 0x00#8)) ∧
      (∀ a, a < s.lat.dstBase.toNat ∨ s.lat.dstBase.toNat + W * H ≤ a → fr.read a = s.frame.read a)

/-- The checks of PLANE and PLANE.M in R203's order: RANGE, ZERO_DIM, HEIGHT_NOT_MULT8, TRUNCATED, CAPACITY.
Each reports its code and cause and changes nothing else. -/
def Obligations.PlaneReportsItsFirstFailedCheck : Prop :=
  ∀ (m : Bool) (s : State) (W H L : Nat),
    W = s.lat.width.toNat → H = s.lat.height.toNat → L = s.lat.srcLen.toNat →
    (s.lat.srcBase.toNat + L > 65536 → exec (planeInstr m) s = .next (s.failed 5#4 0#4)) ∧
    (s.lat.srcBase.toNat + L ≤ 65536 → W = 0 ∨ H = 0 →
      exec (planeInstr m) s = .next (s.failed 1#4 2#4)) ∧
    (s.lat.srcBase.toNat + L ≤ 65536 → W ≠ 0 → H % 8 ≠ 0 →
      exec (planeInstr m) s = .next (s.failed 1#4 3#4)) ∧
    (s.lat.srcBase.toNat + L ≤ 65536 → W ≠ 0 → H ≠ 0 → H % 8 = 0 → W * H / 8 > L →
      exec (planeInstr m) s = .next (s.failed 1#4 5#4)) ∧
    (s.lat.srcBase.toNat + L ≤ 65536 → W ≠ 0 → H ≠ 0 → H % 8 = 0 → W * H / 8 ≤ L →
      s.lat.dstBase.toNat + W * H > 2 ^ s.params.frameAw →
      exec (planeInstr m) s = .next (s.failed 2#4 0#4))

/-- PLANE and PLANE.M, all checks passed, fault when a byte of the packed frame has no value (R67, R122,
R123). -/
def Obligations.PlaneFaultsOnAnUnwrittenByte : Prop :=
  ∀ (m : Bool) (s : State) (W H k : Nat),
    W = s.lat.width.toNat → H = s.lat.height.toNat →
    s.lat.srcBase.toNat + s.lat.srcLen.toNat ≤ 65536 → H % 8 = 0 →
    W * H / 8 ≤ s.lat.srcLen.toNat → s.lat.dstBase.toNat + W * H ≤ 2 ^ s.params.frameAw →
    k < W * H / 8 → s.src.read (s.lat.srcBase.toNat + k) = none →
    exec (planeInstr m) s = .fault .srcByteNoValue

/-! ## The sprite decoder -/

/-- SPRITE (m = 0) and SPRITE.M (m = 1), run while BUSY, complete on every PackedSpriteBuffer that passes
R142's checks and whose bytes have a value: they write exactly n = (length-2)/frame_size frames of W*H samples
in stream order, with the closed form of R146 and so each sample 0x00 or 0xFF, no other FRAME byte, RESULT = n,
SPR_INFO = {n, H, W}, DONE = 1 and the error fields clear; every other field is unchanged. With n = 0 no FRAME
byte is written. -/
def Obligations.SpriteWritesEveryFrameInStreamOrder : Prop :=
  ∀ (m : Bool) (s : State) (w h : Byte) (W H n : Nat), s.Inv → s.phase = .busy →
    s.lat.srcBase.toNat + s.lat.srcLen.toNat ≤ 65536 → 2 ≤ s.lat.srcLen.toNat →
    s.src.read s.lat.srcBase.toNat = some w → s.src.read (s.lat.srcBase.toNat + 1) = some h →
    W = w.toNat → H = h.toNat → W ≠ 0 → H ≠ 0 → H % 8 = 0 →
    s.lat.srcLen.toNat - 2 = n * (W * H / 8) →
    s.lat.dstBase.toNat + n * W * H ≤ 2 ^ s.params.frameAw →
    s.srcWritten s.lat.srcBase.toNat s.lat.srcLen.toNat →
    ∃ fr, exec (spriteInstr m) s = .next { s with
        phase := .idle, done := true, err := false, errCode := 0#4, fmtCause := 0#4,
        frame := fr, result := BitVec.ofNat 32 n,
        sprInfo := BitVec.ofNat 16 n ++ h ++ w } ∧
      (∀ i x y, i < n → x < W → y < H → ∃ v,
        s.src.read (s.lat.srcBase.toNat + (2 + i * (W * H / 8) + (y / 8 * W + x))) = some v ∧
        fr.read (s.lat.dstBase.toNat + i * W * H + y * W + x) =
          some (if (v.getLsbD (y % 8) ^^ m) = true then 0xFF#8 else 0x00#8)) ∧
      (∀ a, a < s.lat.dstBase.toNat ∨ s.lat.dstBase.toNat + n * W * H ≤ a →
        fr.read a = s.frame.read a)

/-- The checks of SPRITE and SPRITE.M in R203's order: RANGE, SHORT_HEADER, then, with the header bytes read,
ZERO_DIM, HEIGHT_NOT_MULT8, NONINTEGRAL_FRAMES, CAPACITY. Each reports its code and cause and changes nothing
else. -/
def Obligations.SpriteReportsItsFirstFailedCheck : Prop :=
  ∀ (m : Bool) (s : State) (B L : Nat), B = s.lat.srcBase.toNat → L = s.lat.srcLen.toNat →
    (B + L > 65536 → exec (spriteInstr m) s = .next (s.failed 5#4 0#4)) ∧
    (B + L ≤ 65536 → L < 2 → exec (spriteInstr m) s = .next (s.failed 1#4 1#4)) ∧
    (∀ (w h : Byte) (W H fs : Nat), B + L ≤ 65536 → 2 ≤ L →
      s.src.read B = some w → s.src.read (B + 1) = some h → W = w.toNat → H = h.toNat →
      fs = W * H / 8 →
      (W = 0 ∨ H = 0 → exec (spriteInstr m) s = .next (s.failed 1#4 2#4)) ∧
      (W ≠ 0 → H % 8 ≠ 0 → exec (spriteInstr m) s = .next (s.failed 1#4 3#4)) ∧
      (W ≠ 0 → H ≠ 0 → H % 8 = 0 → (L - 2) % fs ≠ 0 →
        exec (spriteInstr m) s = .next (s.failed 1#4 4#4)) ∧
      (W ≠ 0 → H ≠ 0 → H % 8 = 0 → (L - 2) % fs = 0 →
        s.lat.dstBase.toNat + (L - 2) / fs * W * H > 2 ^ s.params.frameAw →
        exec (spriteInstr m) s = .next (s.failed 2#4 0#4)))

/-- SPRITE and SPRITE.M fault when a header byte they read has no value, and, all checks passed, when a byte
of a frame has no value (R67, R142, R203). -/
def Obligations.SpriteFaultsOnAnUnwrittenByte : Prop :=
  ∀ (m : Bool) (s : State) (B L : Nat), B = s.lat.srcBase.toNat → L = s.lat.srcLen.toNat →
    B + L ≤ 65536 → 2 ≤ L →
    (s.src.read B = none ∨ s.src.read (B + 1) = none →
      exec (spriteInstr m) s = .fault .srcByteNoValue) ∧
    (∀ (w h : Byte) (W H n k : Nat), s.src.read B = some w → s.src.read (B + 1) = some h →
      W = w.toNat → H = h.toNat → W ≠ 0 → H ≠ 0 → H % 8 = 0 → L - 2 = n * (W * H / 8) →
      s.lat.dstBase.toNat + n * W * H ≤ 2 ^ s.params.frameAw →
      k < n * (W * H / 8) → s.src.read (B + 2 + k) = none →
      exec (spriteInstr m) s = .fault .srcByteNoValue)

/-! ## The tile-map auto-tiler -/

/-- CELLS, run while BUSY, completes on every occupancy region that passes R161's checks and whose bytes have
a value: every cell of the new grid is the bit R160 gives it, GV = 1, RESULT is the SRC address after the
region, DONE is 1, the error fields are clear, and every other field is unchanged. -/
def Obligations.CellsLoadsEveryCellOfTheGrid : Prop :=
  ∀ (s : State) (B lcb : Nat), s.Inv → s.phase = .busy → B = s.lat.srcBase.toNat →
    lcb = (s.params.lw * s.params.lh + 7) / 8 →
    B + s.lat.srcLen.toNat ≤ 65536 → lcb ≤ s.lat.srcLen.toNat → s.srcWritten B lcb →
    ∃ g, exec .cells s = .next { s with
        phase := .idle, done := true, err := false, errCode := 0#4, fmtCause := 0#4,
        gv := true, grid := g, result := BitVec.ofNat 32 (B + lcb) } ∧
      g.length = s.params.lw * s.params.lh ∧
      (∀ x y, x < s.params.lw → y < s.params.lh → ∃ v,
        s.src.read (B + (y * s.params.lw + x) / 8) = some v ∧
        g[y * s.params.lw + x]? = some (v.getLsbD ((y * s.params.lw + x) % 8)))

/-- CELLS reports RANGE (code 5) before TRUNCATED (code 1, cause 5), clears GV and leaves GRID alone on either;
all checks passed, it faults when a byte of the occupancy region has no value (R161, R200, R201, R203, R67). -/
def Obligations.CellsReportsItsFirstFailedCheckOrFaults : Prop :=
  ∀ (s : State) (B L lcb : Nat), B = s.lat.srcBase.toNat → L = s.lat.srcLen.toNat →
    lcb = (s.params.lw * s.params.lh + 7) / 8 →
    (B + L > 65536 → exec .cells s = .next { s.failed 5#4 0#4 with gv := false }) ∧
    (B + L ≤ 65536 → L < lcb → exec .cells s = .next { s.failed 1#4 5#4 with gv := false }) ∧
    (∀ k, B + L ≤ 65536 → lcb ≤ L → k < lcb → s.src.read (B + k) = none →
      exec .cells s = .fault .srcByteNoValue)

/-- SOLID (R164) with the bounds policy of R162, while BUSY: NOGRID while GV = 0; with a loaded grid it
completes for every coordinate, RESULT is solidAt, and every other field is unchanged. -/
def Obligations.SolidAnswersByTheBoundsPolicy : Prop :=
  encode .solid = 0x00000004#32 ∧
  ∀ (s : State) (x y : Int), s.Inv → s.phase = .busy → x = s.lat.qx.toInt → y = s.lat.qy.toInt →
    (s.gv = false → exec .solid s = .next (s.failed 4#4 0#4)) ∧
    (s.gv = true →
      ∃ b : Bool, exec .solid s = .next { s with
          phase := .idle, done := true, err := false, errCode := 0#4, fmtCause := 0#4,
          result := if b then 1#32 else 0#32 } ∧
        ((x < 0 ∨ x ≥ s.params.lw) → (y < 0 ∨ y ≥ s.params.lh) → b = s.params.cornerOobSolid) ∧
        ((x < 0 ∨ x ≥ s.params.lw) → (0 ≤ y ∧ y < s.params.lh) → b = true) ∧
        ((0 ≤ x ∧ x < s.params.lw) → (y < 0 ∨ y ≥ s.params.lh) → b = false) ∧
        ((0 ≤ x ∧ x < s.params.lw) → (0 ≤ y ∧ y < s.params.lh) →
          s.grid[y.toNat * s.params.lw + x.toNat]? = some b))

/-- TILE (R165) with the index of R163, while BUSY: NOGRID while GV = 0; with a loaded grid it completes for
every coordinate, RESULT is 16 for an empty cell and else the sum of the four neighbours' weights, and every
other field is unchanged. -/
def Obligations.TileAnswersTheNeighbourIndex : Prop :=
  encode .tile = 0x00000005#32 ∧
  ∀ (s : State) (x y : Int), s.Inv → s.phase = .busy → x = s.lat.qx.toInt → y = s.lat.qy.toInt →
    (s.gv = false → exec .tile s = .next (s.failed 4#4 0#4)) ∧
    (s.gv = true →
      ∃ cell right top left bottom : Bool,
        solidAt s.params s.grid x y = some cell ∧
        solidAt s.params s.grid (x + 1) y = some right ∧
        solidAt s.params s.grid x (y - 1) = some top ∧
        solidAt s.params s.grid (x - 1) y = some left ∧
        solidAt s.params s.grid x (y + 1) = some bottom ∧
        exec .tile s = .next { s with
          phase := .idle, done := true, err := false, errCode := 0#4, fmtCause := 0#4,
          result := BitVec.ofNat 32 (if cell then
            right.toNat + 2 * top.toNat + 4 * left.toNat + 8 * bottom.toNat else 16) })

/-- R168: horizontally out of bounds is solid and vertically out of bounds is empty, for every valid
coordinate of the other axis; and a cell that is not solid has tile index 16. -/
def Obligations.MapEdgesAreSolidSidewaysAndOpenUpAndDown : Prop :=
  ∀ (p : Params) (g : List Bool),
    (∀ y : Int, 0 ≤ y → y < p.lh →
      solidAt p g (-1) y = some true ∧ solidAt p g p.lw y = some true) ∧
    (∀ x : Int, 0 ≤ x → x < p.lw →
      solidAt p g x (-1) = some false ∧ solidAt p g x p.lh = some false) ∧
    (∀ x y : Int, solidAt p g x y = some false → tileIndexAt p g x y = some 16)

/-- R166 and the range of R163: bits 0 to 3 of a solid cell's index are its right, top, left and bottom
neighbours; the index lies in 0..16, and is 16 exactly when the cell is empty. -/
def Obligations.TileIndexBitsAreTheNeighbours : Prop :=
  ∀ (p : Params) (g : List Bool) (x y : Int) (n : Nat), tileIndexAt p g x y = some n →
    n ≤ 16 ∧ (n = 16 ↔ solidAt p g x y = some false) ∧
    (solidAt p g x y = some true →
      solidAt p g (x + 1) y = some (n.testBit 0) ∧ solidAt p g x (y - 1) = some (n.testBit 1) ∧
      solidAt p g (x - 1) y = some (n.testBit 2) ∧ solidAt p g x (y + 1) = some (n.testBit 3))

/-- R167, locality: grids that differ only outside a cell and its four neighbours give it the same index. -/
def Obligations.TileIndexDependsOnlyOnTheNeighbourhood : Prop :=
  ∀ (p : Params) (g g' : List Bool) (x y : Int),
    (∀ u v : Int, 0 ≤ u → u < p.lw → 0 ≤ v → v < p.lh →
      (u = x ∧ v = y ∨ (u = x + 1 ∨ u = x - 1) ∧ v = y ∨ u = x ∧ (v = y + 1 ∨ v = y - 1)) →
      g[v.toNat * p.lw + u.toNat]? = g'[v.toNat * p.lw + u.toNat]?) →
    tileIndexAt p g x y = tileIndexAt p g' x y

/-! ## Completion, errors and STATUS -/

/-- R204: errors are precise. A completion that leaves an error (the fields were clear, as accept leaves them)
has changed STATUS and PHASE only; a CELLS error also clears GV. -/
def Obligations.ErrorCompletionChangesOnlyStatus : Prop :=
  ∀ s t : State, s.SequencerTurn → s.errCode = 0#4 → step s = .next t → t.errCode ≠ 0#4 →
    (s.latched .cells → t = { s.popped with
      phase := .idle, done := true, err := true, errCode := t.errCode, fmtCause := t.fmtCause,
      gv := false }) ∧
    (¬s.latched .cells → t = { s.popped with
      phase := .idle, done := true, err := true, errCode := t.errCode, fmtCause := t.fmtCause })

/-- R104: every completion, of any command and with or without an error, sets PHASE = IDLE and DONE = 1,
raises the interrupt line where it is enabled, leaves OVR, CTRL, the operand registers, SRC and the latches
alone, and leaves ERR = 0 and FMTCAUSE = 0 on success. -/
def Obligations.CompletionKeepsTheHostsRegisters : Prop :=
  ∀ s t : State, s.Inv → s.SequencerTurn → step s = .next t →
    t.phase = .idle ∧ t.done = true ∧ (s.irqEn = true → t.irq = true) ∧
    t.ovr = s.ovr ∧ t.irqEn = s.irqEn ∧ t.srcLen = s.srcLen ∧ t.srcBase = s.srcBase ∧
    t.dstBase = s.dstBase ∧ t.width = s.width ∧ t.height = s.height ∧ t.qx = s.qx ∧ t.qy = s.qy ∧
    t.src = s.src ∧ t.lat = s.lat ∧
    (t.errCode = 0#4 → t.err = false ∧ t.fmtCause = 0#4) ∧
    (t.errCode ≠ 0#4 → t.err = true ∧ t.result = s.result ∧ t.sprInfo = s.sprInfo)

/-- R26: what sets and clears STATUS.DONE, and that nothing else changes it. -/
def Obligations.DoneIsSetByCompletionAndClearedThreeWays : Prop :=
  ∀ s t : State, step s = .next t →
    (s.SequencerTurn → t.done = true) ∧
    (s.events.head? = some .reset → t.done = false) ∧
    (∀ addr w, s.hostNext (.write32 addr w) → addr.toNat = 0x000000 → s.phase = .idle →
      t.done = false) ∧
    (∀ addr w, s.hostNext (.write32 addr w) → addr.toNat = 0x000004 → w.getLsbD 1 = true →
      t.done = false) ∧
    (¬s.SequencerTurn → s.events.head? ≠ some .reset →
      (∀ addr w, s.hostNext (.write32 addr w) →
        ¬(addr.toNat = 0x000000 ∧ s.phase = .idle) ∧ ¬(addr.toNat = 0x000004 ∧ w.getLsbD 1 = true)) →
      t.done = s.done)

/-- R28: STATUS.OVR is set when the host writes CMD, a SRC byte or a FRAME byte while BUSY, only reset clears
it, and nothing else changes it. -/
def Obligations.OverrunIsStickyUntilReset : Prop :=
  ∀ s t : State, step s = .next t →
    (s.events.head? = some .reset → t.ovr = false) ∧
    (s.phase = .busy →
      ((∃ addr w, s.hostNext (.write32 addr w) ∧ addr.toNat = 0x000000) ∨
        (∃ addr v, s.hostNext (.write8 addr v))) → t.ovr = true) ∧
    (s.events.head? ≠ some .reset →
      ¬(s.phase = .busy ∧
        ((∃ addr w, s.hostNext (.write32 addr w) ∧ addr.toNat = 0x000000) ∨
          (∃ addr v, s.hostNext (.write8 addr v)))) → t.ovr = s.ovr)

/-- R31: STATUS.GV is set by a successful CELLS, whose cells GRID then holds, and cleared by a CELLS error and
by reset; no other command and no host access changes it or GRID; SOLID and TILE without it end with
NOGRID. -/
def Obligations.GridValidFollowsTheLastCells : Prop :=
  (∀ s t : State, s.SequencerTurn → s.errCode = 0#4 → step s = .next t →
    (s.latched .cells → (t.gv = true ↔ t.errCode = 0#4) ∧
      (t.gv = true → t.grid.length = s.params.lw * s.params.lh)) ∧
    (¬s.latched .cells → t.gv = s.gv ∧ t.grid = s.grid)) ∧
  (∀ (s t : State) (a : HostAccess), s.hostNext a → step s = .next t →
    t.gv = s.gv ∧ t.grid = s.grid) ∧
  (∀ s t : State, s.events.head? = some .reset → step s = .next t → t.gv = false) ∧
  (∀ s : State, s.gv = false →
    exec .solid s = .next (s.failed 4#4 0#4) ∧ exec .tile s = .next (s.failed 4#4 0#4))

/-- R39: only a successful SPRITE or SPRITE.M, and reset, change SPR_INFO. -/
def Obligations.OnlyASuccessfulSpriteWritesSprInfo : Prop :=
  ∀ s t : State, s.Inv → step s = .next t → t.sprInfo ≠ s.sprInfo →
    (s.events.head? = some .reset ∧ t.sprInfo = 0#32) ∨
    (s.SequencerTurn ∧ (s.latched .sprite ∨ s.latched .spriteM) ∧ t.err = false)

/-- R205: ERR, ERRCODE and FMTCAUSE stay until the next command accept or reset clears them: outside the
sequencer's turn nothing else changes them. -/
def Obligations.ErrorFieldsStayUntilTheNextAccept : Prop :=
  ∀ s t : State, step s = .next t → ¬s.SequencerTurn → s.events.head? ≠ some .reset →
    (∀ addr w, s.hostNext (.write32 addr w) → ¬(addr.toNat = 0x000000 ∧ s.phase = .idle)) →
    t.err = s.err ∧ t.errCode = s.errCode ∧ t.fmtCause = s.fmtCause

/-- R121: every sample the block writes to FRAME is 0x00 or 0xFF. -/
def Obligations.EverySampleWrittenIsBlackOrWhite : Prop :=
  ∀ s t : State, s.SequencerTurn → step s = .next t →
    ∀ a, t.frame.read a = s.frame.read a ∨ t.frame.read a = some 0x00#8 ∨
      t.frame.read a = some 0xFF#8

/-- Who writes what (20_memory.md R61, R62; 10_state.md R43): a SRC byte changes only by a host write while
IDLE or by reset; a FRAME byte only so or in a PLANE or SPRITE; GRID only in a CELLS that succeeds or by
reset. -/
def Obligations.EachMemoryHasItsOwnWriters : Prop :=
  ∀ s t : State, step s = .next t → s.events.head? ≠ some .reset →
    (∀ a, t.src.read a ≠ s.src.read a → s.phase = .idle ∧ ∃ addr v,
      s.hostNext (.write8 addr v) ∧ addr.toNat = 0x010000 + a ∧ t.src.read a = some v) ∧
    (∀ a, t.frame.read a ≠ s.frame.read a →
      (s.phase = .idle ∧ ∃ addr v,
        s.hostNext (.write8 addr v) ∧ addr.toNat = 0x100000 + a ∧ t.frame.read a = some v) ∨
      (s.SequencerTurn ∧ ∃ i, s.latched i ∧ i.writesFrame)) ∧
    (t.grid ≠ s.grid → s.SequencerTurn ∧ s.latched .cells ∧ t.gv = true)

/-- R44: every command reads its operands from the latches only. With other values in the operand registers,
CTRL and OVR a command does the same, and those values stand. -/
def Obligations.CommandsReadTheirOperandsFromTheLatchesOnly : Prop :=
  ∀ (i : Instr) (s : State) (l b : BitVec 16) (d : BitVec 20) (w h x y : BitVec 8) (q o : Bool),
    let other := fun u : State => { u with
      srcLen := l, srcBase := b, dstBase := d, width := w, height := h, qx := x, qy := y, irqEn := q,
      ovr := o }
    (∀ t, exec i s = .next t → exec i (other s) = .next (other t)) ∧
    (∀ f, exec i s = .fault f → exec i (other s) = .fault f)

/-- R44, R101: outside reset the latches change only when a write of CMD is accepted. -/
def Obligations.LatchesChangeOnlyAtAccept : Prop :=
  ∀ s t : State, step s = .next t → s.events.head? ≠ some .reset → t.lat ≠ s.lat →
    s.phase = .idle ∧ t.phase = .busy ∧ ∃ addr w, s.hostNext (.write32 addr w) ∧
      addr.toNat = 0x000000 ∧ t.lat.op = w.extractLsb' 0 3 ∧ t.lat.m = w.getLsbD 3 ∧
      t.lat.srcLen = s.srcLen ∧ t.lat.srcBase = s.srcBase ∧
      t.lat.dstBase.toNat = s.dstBase.toNat % 2 ^ s.params.frameAw ∧ t.lat.width = s.width ∧
      t.lat.height = s.height ∧ t.lat.qx = s.qx ∧ t.lat.qy = s.qy

/-! ## The registers -/

/-- R24: a read of STATUS shows BUSY exactly while PHASE = BUSY, and every other field in its bits; bits
[31:13] read as 0; it changes nothing of the block. A write of STATUS changes DONE alone, and only clears
it. -/
def Obligations.StatusReadShowsItsFields : Prop :=
  ∀ (s : State) (addr : BitVec 24), addr.toNat = 0x000004 →
    (s.hostNext (.read32 addr) →
      ∃ v : Word, step s = .next { s.popped with replies := s.replies ++ [.word v] } ∧
        (v.getLsbD 0 = true ↔ s.phase = .busy) ∧ v.getLsbD 1 = s.done ∧ v.getLsbD 2 = s.err ∧
        v.getLsbD 3 = s.ovr ∧ v.extractLsb' 4 4 = s.errCode ∧ v.extractLsb' 8 4 = s.fmtCause ∧
        v.getLsbD 12 = s.gv ∧ v.extractLsb' 13 19 = 0#19) ∧
    (∀ w, s.hostNext (.write32 addr w) →
      step s = .next { s.popped with done := if w.getLsbD 1 then false else s.done })

/-- A read of any other register returns its fields, with reserved bits 0 (R23, R32 to R40, R42); it changes
nothing of the block. -/
def Obligations.RegisterReadsReturnTheirFields : Prop :=
  ∀ (s : State) (addr : BitVec 24), s.hostNext (.read32 addr) →
    addr.toNat < 0x2C → addr.toNat % 4 = 0 →
    ∃ v : Word, step s = .next { s.popped with replies := s.replies ++ [.word v] } ∧
      (addr.toNat = 0x00 → v = 0#32) ∧
      (addr.toNat = 0x08 → v = if s.irqEn then 1#32 else 0#32) ∧
      (addr.toNat = 0x0C → v.toNat = s.srcLen.toNat) ∧
      (addr.toNat = 0x10 → v.toNat = s.srcBase.toNat) ∧
      (addr.toNat = 0x14 → v.toNat = s.dstBase.toNat % 2 ^ s.params.frameAw) ∧
      (addr.toNat = 0x18 → v.toNat = s.height.toNat * 256 + s.width.toNat) ∧
      (addr.toNat = 0x1C → v.toNat = s.qy.toNat * 256 + s.qx.toNat) ∧
      (addr.toNat = 0x20 → v = s.result) ∧
      (addr.toNat = 0x24 → v = s.sprInfo) ∧
      (addr.toNat = 0x28 →
        v.toNat = s.params.frameAw * 65536 + s.params.lh * 256 + s.params.lw)

/-- A write of a register other than CMD takes effect at once, in either phase, on that register's fields and
on nothing else; writes of RESULT, SPR_INFO, PARAM and reserved bits are ignored (R24, R32 to R40, R42,
R237). -/
def Obligations.RegisterWritesTakeEffectAtOnce : Prop :=
  ∀ (s : State) (addr : BitVec 24) (w : Word), s.hostNext (.write32 addr w) →
    (addr.toNat = 0x04 → step s = .next { s.popped with done := s.done && !w.getLsbD 1 }) ∧
    (addr.toNat = 0x08 → step s = .next { s.popped with irqEn := w.getLsbD 0 }) ∧
    (addr.toNat = 0x0C → step s = .next { s.popped with srcLen := w.extractLsb' 0 16 }) ∧
    (addr.toNat = 0x10 → step s = .next { s.popped with srcBase := w.extractLsb' 0 16 }) ∧
    (addr.toNat = 0x14 → ∃ d : BitVec 20, d.toNat = w.toNat % 2 ^ s.params.frameAw ∧
      step s = .next { s.popped with dstBase := d }) ∧
    (addr.toNat = 0x18 → step s = .next { s.popped with
      width := w.extractLsb' 0 8, height := w.extractLsb' 8 8 }) ∧
    (addr.toNat = 0x1C → step s = .next { s.popped with
      qx := w.extractLsb' 0 8, qy := w.extractLsb' 8 8 }) ∧
    (addr.toNat = 0x20 ∨ addr.toNat = 0x24 ∨ addr.toNat = 0x28 → step s = .next s.popped)

/-- R40: PARAM is {0, FRAME_AW, LH, LW}; its value is the same at all times, and a host write to it is
ignored. -/
def Obligations.ParamIsConstant : Prop :=
  (∀ s : State, (s.readReg .param).extractLsb' 0 8 = BitVec.ofNat 8 s.params.lw ∧
    (s.readReg .param).extractLsb' 8 8 = BitVec.ofNat 8 s.params.lh ∧
    (s.readReg .param).extractLsb' 16 8 = BitVec.ofNat 8 s.params.frameAw ∧
    (s.readReg .param).extractLsb' 24 8 = 0#8) ∧
  (∀ s t : State, step s = .next t → t.params = s.params ∧ t.readReg .param = s.readReg .param) ∧
  (∀ (s : State) (addr : BitVec 24) (w : Word), s.hostNext (.write32 addr w) → addr.toNat = 0x28 →
    step s = .next s.popped)

/-- R207: the line is IRQ_EN and DONE at all times; after a completion with CTRL.IRQ_EN = 1 the line is high; after reset it is low; and it rises only
by a completion or by a CTRL write that enables it. -/
def Obligations.InterruptRisesOnlyByCompletionOrEnable : Prop :=
  (∀ s : State, s.irq = (s.irqEn && s.done)) ∧
  ∀ s t : State, step s = .next t →
    (s.SequencerTurn → s.irqEn = true → t.irq = true) ∧
    (s.events.head? = some .reset → t.irq = false) ∧
    (s.irq = false → t.irq = true → s.SequencerTurn ∨
      ∃ addr w, s.hostNext (.write32 addr w) ∧ addr.toNat = 0x000008 ∧ w.getLsbD 0 = true ∧
        s.done = true)

/-- R208: the three ways the host clears irq, and that reading STATUS does not clear DONE. -/
def Obligations.HostClearsTheInterruptThreeWays : Prop :=
  ∀ s t : State, step s = .next t →
    (∀ addr w, s.hostNext (.write32 addr w) →
      (addr.toNat = 0x000004 → w.getLsbD 1 = true → t.done = false ∧ t.irq = false) ∧
      (addr.toNat = 0x000008 → w.getLsbD 0 = false → t.done = s.done ∧ t.irq = false) ∧
      (addr.toNat = 0x000000 → s.phase = .idle → t.done = false ∧ t.irq = false)) ∧
    (∀ addr, s.hostNext (.read32 addr) → t.done = s.done ∧ t.irq = s.irq)

/-! ## The bus and the memories -/

/-- R69: no read of a register or of a memory byte changes the block's state: it returns one reply. The model's
own count of free draws may rise. -/
def Obligations.ReadsChangeNothing : Prop :=
  ∀ (s t : State) (addr : BitVec 24),
    s.hostNext (.read8 addr) ∨ s.hostNext (.read32 addr) → step s = .next t →
    ∃ r, t = { s.popped with replies := s.replies ++ [r], draws := t.draws }

/-- R235: a host write of a SRC or FRAME byte, or of CMD, while BUSY is dropped and sets OVR; so no host access
changes SRC or FRAME while BUSY. -/
def Obligations.MemoryWritesWhileBusyAreDropped : Prop :=
  ∀ (s : State), s.phase = .busy →
    (∀ (addr : BitVec 24) (v : Byte) (a : Nat), s.hostNext (.write8 addr v) →
      (a < 65536 ∧ addr.toNat = 0x010000 + a ∨
        a < 2 ^ s.params.frameAw ∧ addr.toNat = 0x100000 + a) →
      step s = .next { s.popped with ovr := true }) ∧
    (∀ (addr : BitVec 24) (w : Word), s.hostNext (.write32 addr w) → addr.toNat = 0x000000 →
      step s = .next { s.popped with ovr := true }) ∧
    (∀ (a : HostAccess) (t : State), s.hostNext a → step s = .next t →
      t.src = s.src ∧ t.frame = s.frame)

/-- R236: a host read of any FRAME byte while a PLANE or SPRITE is BUSY answers some byte, whether or not the
byte has a value; any other read of a FRAME byte, and every read of a SRC byte, returns the stored value. Two
parts are the model's (notes/assumptions/5.md): the byte of a race is a free value (DESIGN CHOICE), and a BUSY
illegal word with OP 1 or 2 is no PLANE or SPRITE and does not race (DEDUCED from R108 and R236). -/
def Obligations.FrameReadsRaceOnlyWithPlaneAndSprite : Prop :=
  ∀ (s : State) (addr : BitVec 24) (a : Nat), s.hostNext (.read8 addr) →
    (a < 2 ^ s.params.frameAw → addr.toNat = 0x100000 + a →
      (s.phase = .busy → (∃ i, s.latched i ∧ i.writesFrame) → ∃ b,
        step s = .next { s.popped with replies := s.replies ++ [.byte b], draws := s.draws + 1 }) ∧
      (¬(s.phase = .busy ∧ ∃ i, s.latched i ∧ i.writesFrame) → ∀ v, s.frame.read a = some v →
        step s = .next { s.popped with replies := s.replies ++ [.byte v] })) ∧
    (a < 65536 → addr.toNat = 0x010000 + a → ∀ v, s.src.read a = some v →
      step s = .next { s.popped with replies := s.replies ++ [.byte v] })

/-- R67 on the host's side: a host read of a SRC or FRAME byte that nothing has written since reset is a model
fault (a FRAME read that races with a PLANE or SPRITE excepted, R236). That a BUSY illegal word with OP 1 or 2
does not race, so that the FRAME read faults beside it too, is the model's reading (notes/assumptions/5.md,
DEDUCED). -/
def Obligations.ReadingAnUnwrittenByteFaults : Prop :=
  ∀ (s : State) (addr : BitVec 24) (a : Nat), s.hostNext (.read8 addr) →
    (a < 65536 → addr.toNat = 0x010000 + a → s.src.read a = none →
      step s = .fault .srcByteNoValue) ∧
    (a < 2 ^ s.params.frameAw → addr.toNat = 0x100000 + a → s.frame.read a = none →
      ¬(s.phase = .busy ∧ ∃ i, s.latched i ∧ i.writesFrame) → step s = .fault .frameByteNoValue)

/-- R60 to R62: a byte the host writes to SRC or FRAME while IDLE reads back, and every other byte of that
memory and everything else is as before. -/
def Obligations.HostByteWriteReadsBack : Prop :=
  ∀ (s : State) (addr : BitVec 24) (v : Byte) (a : Nat) (rest : List Event), s.phase = .idle →
    s.events = .host (.write8 addr v) :: .host (.read8 addr) :: rest →
    (a < 65536 → addr.toNat = 0x010000 + a → ∃ m : Memory,
      Sys2Proof.core.run 2 s = .next { s with
        events := rest, src := m, replies := s.replies ++ [.byte v] } ∧
      m.read a = some v ∧ ∀ b, b ≠ a → m.read b = s.src.read b) ∧
    (a < 2 ^ s.params.frameAw → addr.toNat = 0x100000 + a → ∃ m : Memory,
      Sys2Proof.core.run 2 s = .next { s with
        events := rest, frame := m, replies := s.replies ++ [.byte v] } ∧
      m.read a = some v ∧ ∀ b, b ≠ a → m.read b = s.frame.read b)

/-- R65, R66: a host access is refused exactly when its width, its alignment or its address is not one that the
map admits: a 16-bit access always, a 32-bit access but at a multiple of 4 below 0x2C, an 8-bit access but in
the SRC or FRAME window. -/
def Obligations.AccessesAreRefusedExactlyOutsideTheMap : Prop :=
  ∀ (s : State) (addr : BitVec 24) (b : Byte) (h : BitVec 16) (w : Word),
    (s.hostNext (.read16 addr) ∨ s.hostNext (.write16 addr h) → ∃ r, step s = .refused r) ∧
    (s.hostNext (.read32 addr) ∨ s.hostNext (.write32 addr w) →
      ((∃ r, step s = .refused r) ↔ ¬(addr.toNat < 0x2C ∧ addr.toNat % 4 = 0))) ∧
    (s.hostNext (.read8 addr) ∨ s.hostNext (.write8 addr b) →
      ((∃ r, step s = .refused r) ↔
        ¬(0x010000 ≤ addr.toNat ∧ addr.toNat ≤ 0x01FFFF) ∧
        ¬(0x100000 ≤ addr.toNat ∧ addr.toNat < 0x100000 + 2 ^ s.params.frameAw)))

/-- R87: what each pseudo-instruction leaves, its transactions run one after another; `cmd` and `ldsrc` while
IDLE, `wait` in each phase, the others in either. `wait` while BUSY, in the run where n polls come before the
completion: each of them reads BUSY = 1, the sequencer completes the command (or is a model fault on an
unwritten SRC byte, R67), and the next poll reads BUSY = 0 and ends it; while IDLE the first poll ends it. That
`wait`, a loop of the host, is given by the events of each of its runs is the model's choice
(notes/assumptions/20.md). -/
def Obligations.PseudoInstructionsLeaveTheirOperands : Prop :=
  (∀ (s : State) (p : Pseudo) (rest : List Event), s.events = hostEvents p.expand ++ rest →
    (∀ i, p = .cmd i → s.phase = .idle →
      step s = .next { s.accept (encode i) with events := rest } ∧ (s.accept (encode i)).latched i) ∧
    (p = .ack → step s = .next { s with events := rest, done := false }) ∧
    (∀ W H, p = .geom W H → W ≤ 255 → H ≤ 255 → ∃ w h : BitVec 8, w.toNat = W ∧ h.toNat = H ∧
      step s = .next { s with events := rest, width := w, height := h }) ∧
    (∀ X Y : Int, p = .query X Y → -128 ≤ X → X ≤ 127 → -128 ≤ Y → Y ≤ 127 →
      ∃ x y : BitVec 8, x.toInt = X ∧ y.toInt = Y ∧
        step s = .next { s with events := rest, qx := x, qy := y }) ∧
    (∀ B L, p = .src B L → B ≤ 65535 → L ≤ 65535 → ∃ b l : BitVec 16, b.toNat = B ∧ l.toNat = L ∧
      Sys2Proof.core.run 2 s = .next { s with events := rest, srcBase := b, srcLen := l }) ∧
    (∀ a vs, p = .ldsrc a vs → a + vs.length ≤ 65536 → s.phase = .idle → ∃ m : Memory,
      Sys2Proof.core.run vs.length s = .next { s with events := rest, src := m } ∧
      (∀ k, k < vs.length → m.read (a + k) = vs[k]?) ∧
      (∀ b, b < a ∨ a + vs.length ≤ b → m.read b = s.src.read b))) ∧
  (∀ (n : Nat) (s : State) (rest : List Event), s.Inv → s.phase = .busy → s.events = waitEvents n ++ rest →
    let polled : State := { s with
      events := .sequencer :: .host (HostInstr.rd .status).access :: rest,
      replies := s.replies ++ List.replicate n (.word s.statusWord) }
    s.statusWord.getLsbD 0 = true ∧
    ((∃ t, step polled = .next t ∧ t.phase = .idle ∧ t.done = true ∧ t.replies = polled.replies ∧
        t.statusWord.getLsbD 0 = false ∧
        Sys2Proof.core.run (n + 2) s = .next { t with
          events := rest, replies := t.replies ++ [.word t.statusWord] }) ∨
      (step polled = .fault .srcByteNoValue ∧
        Sys2Proof.core.run (n + 2) s = .fault .srcByteNoValue))) ∧
  (∀ (s : State) (rest : List Event), s.phase = .idle → s.events = waitEvents 0 ++ rest →
    s.statusWord.getLsbD 0 = false ∧
    Sys2Proof.core.run 2 s = .next { s with
      events := rest, replies := s.replies ++ [.word s.statusWord] })

/-! ## Reset -/

/-- R46: the state after reset, for every choice of the parameters, as its registers read and as its memories,
its grid and its interrupt line are. The latches' values are unspecified there, and no clause says them. -/
def Obligations.ResetLeavesTheTableOfResetValues : Prop :=
  State.reset = State.resetOf Config.params ∧
  ∀ (p : Params) (s : State), s = State.resetOf p →
    s.params = p ∧ s.phase = .idle ∧
    (∀ r, r ≠ .param → s.readReg r = 0#32) ∧
    (s.readReg .param).toNat = p.frameAw * 65536 + p.lh * 256 + p.lw ∧
    (∀ k : Nat, s.grid[k]? = none) ∧ (∀ a, s.src.read a = none) ∧ (∀ a, s.frame.read a = none) ∧
    s.irq = false

/-- R230, R231: reset, in either phase and so also while a command is BUSY, puts every piece of state at its
reset value; the latches take some value. The parameters and the model's own record of the outside world
(events, replies, draws: notes/assumptions/4.md) stay. -/
def Obligations.ResetInputPutsEveryPieceAtItsResetValue : Prop :=
  ∀ s : State, s.events.head? = some .reset →
    ∃ l : Latches, step s = .next
      { params := s.params, phase := .idle, done := false, err := false, ovr := false,
        errCode := 0#4, fmtCause := 0#4, gv := false, irqEn := false, srcLen := 0#16,
        srcBase := 0#16, dstBase := 0#20, width := 0#8, height := 0#8, qx := 0#8, qy := 0#8,
        result := 0#32, sprInfo := 0#32, lat := l, grid := [], src := [], frame := [],
        events := s.events.tail, replies := s.replies, draws := s.draws }

/-! ## The invariant and the run -/

/-- The invariant holds after reset, whatever the parameters and whatever the latches, which R46 leaves
unspecified: the zeros the model has there (notes/assumptions/6.md) are not needed. The premise says that the
latch of DST_BASE is FRAME_AW bits wide (R44). -/
def Obligations.ResetMeetsTheInvariant : Prop :=
  State.reset.Inv ∧ ∀ (p : Params) (l : Latches), l.dstBase.toNat < 2 ^ p.frameAw →
    ({ State.resetOf p with lat := l } : State).Inv

/-- Every step keeps the invariant: canonical memories within their sizes, DST_BASE within FRAME_AW bits,
ERR = (ERRCODE != 0) (R27), codes and causes that are assigned (R29, R30), clear flags while BUSY (R70), while
BUSY a latched legal word that is a command (R106), and a whole grid behind GV = 1 (R31). A reset keeps it
whatever values the latches take there (ResetMeetsTheInvariant). -/
def Obligations.EveryStepKeepsTheInvariant : Prop :=
  ∀ s t : State, s.Inv → step s = .next t → t.Inv

/-- From a state that meets the invariant a step faults only on a SRC or FRAME byte without a value, never on
the grid or the latches (R67, R106). -/
def Obligations.OnlyUnwrittenBytesFault : Prop :=
  ∀ (s : State) (f : Fault), s.Inv → step s = .fault f →
    f = .srcByteNoValue ∨ f = .frameByteNoValue

/-- R105: an accepted command completes while the host only waits, however often it polls STATUS: after n polls
the next step completes it, or is a model fault on an unwritten SRC byte (R67). That an empty script gives
the sequencer the turn is the model's form of R105's fairness (notes/assumptions/2.md). -/
def Obligations.AcceptedCommandCompletesWhileTheHostWaits : Prop :=
  ∀ (n : Nat) (s : State) (addr : BitVec 24), s.Inv → s.phase = .busy → addr.toNat = 0x000004 →
    s.events = List.replicate n (.host (.read32 addr)) →
    (∃ t, SafeRun (n + 1) s t ∧ t.done = true ∧
      t.replies = s.replies ++ List.replicate n (.word s.statusWord)) ∨
    Sys2Proof.core.run (n + 1) s = .fault .srcByteNoValue
end

