-- ==== Sys2Proof/Laws/Basic.lean ====
section
/-! SUPPORT. Facts about the parameters, the memories and the loop of the pseudocode. -/

namespace Sys2Proof

/-- The other form of R6. -/
theorem Params.lcb_eq (p : Params) : p.lcb = (p.lw * p.lh + 7) / 8 := by
  have : 0 < p.lw * p.lh := Nat.mul_pos (by simp [Params.lw]) (by simp [Params.lh])
  simp only [Params.lcb]; omega

theorem Params.lw_pos (p : Params) : 0 < p.lw := Nat.succ_pos _
theorem Params.lh_pos (p : Params) : 0 < p.lh := Nat.succ_pos _
theorem Params.lw_le (p : Params) : p.lw ≤ 127 := by have := p.lwLess1.isLt; simp only [Params.lw]; omega
theorem Params.lh_le (p : Params) : p.lh ≤ 127 := by have := p.lhLess1.isLt; simp only [Params.lh]; omega
theorem Params.frameAw_le (p : Params) : p.frameAw ≤ 20 := by
  have := p.awLess16.isLt; simp only [Params.frameAw]; omega

theorem Params.frameSize_pos (p : Params) : 0 < p.frameSize := Nat.pos_of_ne_zero (by simp [frameSize])

theorem Params.frameSize_le (p : Params) : p.frameSize ≤ 2 ^ 20 :=
  Nat.pow_le_pow_right (by decide) p.frameAw_le

theorem Params.frameSize_ge (p : Params) : 65536 ≤ p.frameSize :=
  Nat.pow_le_pow_right (show 2 > 0 by decide) (Nat.le_add_left 16 _)

/-- A cell index of the grid lies in the first LCB bytes (R160). -/
theorem Params.cell_byte_lt (p : Params) {k : Nat} (h : k < p.lw * p.lh) : k / 8 < p.lcb := by
  rw [p.lcb_eq]; omega

namespace Machine

theorem Memory.read_write_same (m : Memory) (a : Nat) (v : Byte) : (m.write a v).read a = some v := by
  induction m with
  | nil => simp [write, read]
  | cons c m ih =>
    obtain ⟨b, w⟩ := c
    simp only [write]
    split
    · simp [read]
    · split
      · simp [read]
      · rw [read, if_neg ‹_›]; exact ih

theorem Memory.read_write_other (m : Memory) {a b : Nat} (v : Byte) (h : b ≠ a) :
    (m.write a v).read b = m.read b := by
  induction m with
  | nil => simp [write, read, h]
  | cons c m ih =>
    obtain ⟨d, w⟩ := c
    simp only [write]
    split
    · rw [read, if_neg h]
    · split
      · subst_vars; simp [read, h]
      · simp only [read, ih]

/-- The one law of a write: it changes the byte at its address and no other. -/
theorem Memory.read_write (m : Memory) (a b : Nat) (v : Byte) :
    (m.write a v).read b = if b = a then some v else m.read b := by
  split
  · subst_vars; exact m.read_write_same _ v
  · exact m.read_write_other v ‹_›

theorem Memory.risesFrom_write (m : Memory) {lo a : Nat} (v : Byte) (h : m.risesFrom lo = true)
    (hlo : lo ≤ a) : (m.write a v).risesFrom lo = true := by
  induction m generalizing lo with
  | nil => simpa [write, risesFrom] using hlo
  | cons c m ih =>
    obtain ⟨b, w⟩ := c
    simp only [risesFrom, Bool.and_eq_true, decide_eq_true_eq] at h
    simp only [write]
    split
    · simp only [risesFrom, Bool.and_eq_true, decide_eq_true_eq]
      exact ⟨hlo, by omega, h.2⟩
    · split
      · subst_vars; simp only [risesFrom, Bool.and_eq_true, decide_eq_true_eq]; exact ⟨hlo, h.2⟩
      · simp only [risesFrom, Bool.and_eq_true, decide_eq_true_eq]
        exact ⟨h.1, ih h.2 (by omega)⟩

/-- A write keeps the canonical form. -/
theorem Memory.wf_write (m : Memory) (a : Nat) (v : Byte) (h : m.wf = true) :
    (m.write a v).wf = true := m.risesFrom_write v h (Nat.zero_le _)

theorem Memory.within_write (m : Memory) {size a : Nat} (v : Byte) (h : m.within size = true)
    (ha : a < size) : (m.write a v).within size = true := by
  induction m with
  | nil => simpa [write, within] using ha
  | cons c m ih =>
    obtain ⟨b, w⟩ := c
    simp only [within, List.all_cons, Bool.and_eq_true, decide_eq_true_eq] at h ih ⊢
    simp only [write]
    split
    · simpa [ha] using h
    · split
      · simpa [ha] using h.2
      · simpa [h.1] using ih h.2

/-- A loop completes, and `P` holds at its end, when each pass completes and carries `P` on. -/
theorem forRange_ok {α : Type} {body : Nat → α → Except Fault α} (P : Nat → α → Prop) {n : Nat} {a : α}
    (h0 : P 0 a) (hstep : ∀ i a, i < n → P i a → ∃ a', body i a = .ok a' ∧ P (i + 1) a') :
    ∃ a', forRange body n a = .ok a' ∧ P n a' := by
  induction n with
  | zero => exact ⟨a, rfl, h0⟩
  | succ n ih =>
    obtain ⟨a', he, hp⟩ := ih fun i a hi => hstep i a (by omega)
    obtain ⟨a'', he', hp'⟩ := hstep n a' (by omega) hp
    exact ⟨a'', by simp [forRange, he, he'], hp'⟩

/-- What holds before a completed loop and is carried on by each completed pass holds at its end. -/
theorem forRange_inv {α : Type} {body : Nat → α → Except Fault α} (P : Nat → α → Prop) {n : Nat}
    {a a' : α} (h : forRange body n a = .ok a') (h0 : P 0 a)
    (hstep : ∀ i a a', i < n → P i a → body i a = .ok a' → P (i + 1) a') : P n a' := by
  induction n generalizing a' with
  | zero => cases h; exact h0
  | succ n ih =>
    simp only [forRange] at h
    split at h
    · exact hstep n _ _ (by omega) (ih ‹_› fun i a a' hi => hstep i a a' (by omega)) h
    · cases h

/-- What every pass of a loop keeps, the loop keeps. -/
theorem forRange_keeps {α : Type} {body : Nat → α → Except Fault α} (P : α → Prop) {n : Nat} {a a' : α}
    (h : forRange body n a = .ok a') (h0 : P a)
    (hstep : ∀ i a a', i < n → P a → body i a = .ok a' → P a') : P a' :=
  forRange_inv (fun _ => P) h h0 hstep

/-- A loop's fault is a fault of one of its passes. -/
theorem forRange_error {α : Type} {body : Nat → α → Except Fault α} (E : Fault → Prop) {n : Nat} {a : α}
    {f : Fault} (h : forRange body n a = .error f)
    (hstep : ∀ i a f, i < n → body i a = .error f → E f) : E f := by
  induction n with
  | zero => cases h
  | succ n ih =>
    simp only [forRange] at h
    split at h
    · exact hstep n _ _ (by omega) h
    · cases h; exact ih ‹_› fun i a f hi => hstep i a f (by omega)

/-- A loop one of whose passes faults on every value faults. -/
theorem forRange_fails {α : Type} {body : Nat → α → Except Fault α} {n : Nat} {i : Nat} (hi : i < n)
    (hbad : ∀ a, ∃ f, body i a = .error f) (a : α) : ∃ f, forRange body n a = .error f := by
  induction n with
  | zero => omega
  | succ n ih =>
    simp only [forRange]
    rcases Nat.lt_or_ge i n with h | h
    · obtain ⟨f, hf⟩ := ih h; exact ⟨f, by rw [hf]⟩
    · obtain rfl : i = n := by omega
      split
      · exact hbad _
      · exact ⟨_, rfl⟩

end Machine
end Sys2Proof
end

