-- ==== Sys2Proof/Laws/State.lean ====
section
/-! SUPPORT. What each update of the state leaves in each field: one lemma per field per update. -/

namespace Sys2Proof.Machine

variable (s : State)

/-! Accept's clearing of the STATUS fields (R101). -/

@[simp] theorem State.clearStatus_params : s.clearStatus.params = s.params := rfl
@[simp] theorem State.clearStatus_phase : s.clearStatus.phase = s.phase := rfl
@[simp] theorem State.clearStatus_done : s.clearStatus.done = false := rfl
@[simp] theorem State.clearStatus_err : s.clearStatus.err = false := rfl
@[simp] theorem State.clearStatus_ovr : s.clearStatus.ovr = s.ovr := rfl
@[simp] theorem State.clearStatus_errCode : s.clearStatus.errCode = 0#4 := rfl
@[simp] theorem State.clearStatus_fmtCause : s.clearStatus.fmtCause = 0#4 := rfl
@[simp] theorem State.clearStatus_gv : s.clearStatus.gv = s.gv := rfl
@[simp] theorem State.clearStatus_irqEn : s.clearStatus.irqEn = s.irqEn := rfl
@[simp] theorem State.clearStatus_srcLen : s.clearStatus.srcLen = s.srcLen := rfl
@[simp] theorem State.clearStatus_srcBase : s.clearStatus.srcBase = s.srcBase := rfl
@[simp] theorem State.clearStatus_dstBase : s.clearStatus.dstBase = s.dstBase := rfl
@[simp] theorem State.clearStatus_width : s.clearStatus.width = s.width := rfl
@[simp] theorem State.clearStatus_height : s.clearStatus.height = s.height := rfl
@[simp] theorem State.clearStatus_qx : s.clearStatus.qx = s.qx := rfl
@[simp] theorem State.clearStatus_qy : s.clearStatus.qy = s.qy := rfl
@[simp] theorem State.clearStatus_result : s.clearStatus.result = s.result := rfl
@[simp] theorem State.clearStatus_sprInfo : s.clearStatus.sprInfo = s.sprInfo := rfl
@[simp] theorem State.clearStatus_lat : s.clearStatus.lat = s.lat := rfl
@[simp] theorem State.clearStatus_grid : s.clearStatus.grid = s.grid := rfl
@[simp] theorem State.clearStatus_src : s.clearStatus.src = s.src := rfl
@[simp] theorem State.clearStatus_frame : s.clearStatus.frame = s.frame := rfl
@[simp] theorem State.clearStatus_events : s.clearStatus.events = s.events := rfl
@[simp] theorem State.clearStatus_replies : s.clearStatus.replies = s.replies := rfl
@[simp] theorem State.clearStatus_draws : s.clearStatus.draws = s.draws := rfl

/-! The error fields of a completion (R103). -/

@[simp] theorem State.setError_params (e : CmdError) : (s.setError e).params = s.params := rfl
@[simp] theorem State.setError_phase (e : CmdError) : (s.setError e).phase = s.phase := rfl
@[simp] theorem State.setError_done (e : CmdError) : (s.setError e).done = s.done := rfl
@[simp] theorem State.setError_err (e : CmdError) : (s.setError e).err = true := rfl
@[simp] theorem State.setError_ovr (e : CmdError) : (s.setError e).ovr = s.ovr := rfl
@[simp] theorem State.setError_errCode (e : CmdError) : (s.setError e).errCode = e.code := rfl
@[simp] theorem State.setError_fmtCause (e : CmdError) : (s.setError e).fmtCause = e.cause := rfl
@[simp] theorem State.setError_gv (e : CmdError) : (s.setError e).gv = s.gv := rfl
@[simp] theorem State.setError_irqEn (e : CmdError) : (s.setError e).irqEn = s.irqEn := rfl
@[simp] theorem State.setError_srcLen (e : CmdError) : (s.setError e).srcLen = s.srcLen := rfl
@[simp] theorem State.setError_srcBase (e : CmdError) : (s.setError e).srcBase = s.srcBase := rfl
@[simp] theorem State.setError_dstBase (e : CmdError) : (s.setError e).dstBase = s.dstBase := rfl
@[simp] theorem State.setError_width (e : CmdError) : (s.setError e).width = s.width := rfl
@[simp] theorem State.setError_height (e : CmdError) : (s.setError e).height = s.height := rfl
@[simp] theorem State.setError_qx (e : CmdError) : (s.setError e).qx = s.qx := rfl
@[simp] theorem State.setError_qy (e : CmdError) : (s.setError e).qy = s.qy := rfl
@[simp] theorem State.setError_result (e : CmdError) : (s.setError e).result = s.result := rfl
@[simp] theorem State.setError_sprInfo (e : CmdError) : (s.setError e).sprInfo = s.sprInfo := rfl
@[simp] theorem State.setError_lat (e : CmdError) : (s.setError e).lat = s.lat := rfl
@[simp] theorem State.setError_grid (e : CmdError) : (s.setError e).grid = s.grid := rfl
@[simp] theorem State.setError_src (e : CmdError) : (s.setError e).src = s.src := rfl
@[simp] theorem State.setError_frame (e : CmdError) : (s.setError e).frame = s.frame := rfl
@[simp] theorem State.setError_events (e : CmdError) : (s.setError e).events = s.events := rfl
@[simp] theorem State.setError_replies (e : CmdError) : (s.setError e).replies = s.replies := rfl
@[simp] theorem State.setError_draws (e : CmdError) : (s.setError e).draws = s.draws := rfl

/-! Every completion (R103). -/

@[simp] theorem State.finish_params : s.finish.params = s.params := rfl
@[simp] theorem State.finish_phase : s.finish.phase = .idle := rfl
@[simp] theorem State.finish_done : s.finish.done = true := rfl
@[simp] theorem State.finish_err : s.finish.err = s.err := rfl
@[simp] theorem State.finish_ovr : s.finish.ovr = s.ovr := rfl
@[simp] theorem State.finish_errCode : s.finish.errCode = s.errCode := rfl
@[simp] theorem State.finish_fmtCause : s.finish.fmtCause = s.fmtCause := rfl
@[simp] theorem State.finish_gv : s.finish.gv = s.gv := rfl
@[simp] theorem State.finish_irqEn : s.finish.irqEn = s.irqEn := rfl
@[simp] theorem State.finish_srcLen : s.finish.srcLen = s.srcLen := rfl
@[simp] theorem State.finish_srcBase : s.finish.srcBase = s.srcBase := rfl
@[simp] theorem State.finish_dstBase : s.finish.dstBase = s.dstBase := rfl
@[simp] theorem State.finish_width : s.finish.width = s.width := rfl
@[simp] theorem State.finish_height : s.finish.height = s.height := rfl
@[simp] theorem State.finish_qx : s.finish.qx = s.qx := rfl
@[simp] theorem State.finish_qy : s.finish.qy = s.qy := rfl
@[simp] theorem State.finish_result : s.finish.result = s.result := rfl
@[simp] theorem State.finish_sprInfo : s.finish.sprInfo = s.sprInfo := rfl
@[simp] theorem State.finish_lat : s.finish.lat = s.lat := rfl
@[simp] theorem State.finish_grid : s.finish.grid = s.grid := rfl
@[simp] theorem State.finish_src : s.finish.src = s.src := rfl
@[simp] theorem State.finish_frame : s.finish.frame = s.frame := rfl
@[simp] theorem State.finish_events : s.finish.events = s.events := rfl
@[simp] theorem State.finish_replies : s.finish.replies = s.replies := rfl
@[simp] theorem State.finish_draws : s.finish.draws = s.draws := rfl

/-! Error completion (R204). -/

@[simp] theorem State.finishError_params (e : CmdError) : (s.finishError e).params = s.params := rfl
@[simp] theorem State.finishError_phase (e : CmdError) : (s.finishError e).phase = .idle := rfl
@[simp] theorem State.finishError_done (e : CmdError) : (s.finishError e).done = true := rfl
@[simp] theorem State.finishError_err (e : CmdError) : (s.finishError e).err = true := rfl
@[simp] theorem State.finishError_ovr (e : CmdError) : (s.finishError e).ovr = s.ovr := rfl
@[simp] theorem State.finishError_errCode (e : CmdError) : (s.finishError e).errCode = e.code := rfl
@[simp] theorem State.finishError_fmtCause (e : CmdError) : (s.finishError e).fmtCause = e.cause := rfl
@[simp] theorem State.finishError_gv (e : CmdError) : (s.finishError e).gv = s.gv := rfl
@[simp] theorem State.finishError_irqEn (e : CmdError) : (s.finishError e).irqEn = s.irqEn := rfl
@[simp] theorem State.finishError_srcLen (e : CmdError) : (s.finishError e).srcLen = s.srcLen := rfl
@[simp] theorem State.finishError_srcBase (e : CmdError) : (s.finishError e).srcBase = s.srcBase := rfl
@[simp] theorem State.finishError_dstBase (e : CmdError) : (s.finishError e).dstBase = s.dstBase := rfl
@[simp] theorem State.finishError_width (e : CmdError) : (s.finishError e).width = s.width := rfl
@[simp] theorem State.finishError_height (e : CmdError) : (s.finishError e).height = s.height := rfl
@[simp] theorem State.finishError_qx (e : CmdError) : (s.finishError e).qx = s.qx := rfl
@[simp] theorem State.finishError_qy (e : CmdError) : (s.finishError e).qy = s.qy := rfl
@[simp] theorem State.finishError_result (e : CmdError) : (s.finishError e).result = s.result := rfl
@[simp] theorem State.finishError_sprInfo (e : CmdError) : (s.finishError e).sprInfo = s.sprInfo := rfl
@[simp] theorem State.finishError_lat (e : CmdError) : (s.finishError e).lat = s.lat := rfl
@[simp] theorem State.finishError_grid (e : CmdError) : (s.finishError e).grid = s.grid := rfl
@[simp] theorem State.finishError_src (e : CmdError) : (s.finishError e).src = s.src := rfl
@[simp] theorem State.finishError_frame (e : CmdError) : (s.finishError e).frame = s.frame := rfl
@[simp] theorem State.finishError_events (e : CmdError) : (s.finishError e).events = s.events := rfl
@[simp] theorem State.finishError_replies (e : CmdError) : (s.finishError e).replies = s.replies := rfl
@[simp] theorem State.finishError_draws (e : CmdError) : (s.finishError e).draws = s.draws := rfl

/-! Accept (R101). -/

@[simp] theorem State.accept_params (w : Word) : (s.accept w).params = s.params := rfl
@[simp] theorem State.accept_phase (w : Word) : (s.accept w).phase = .busy := rfl
@[simp] theorem State.accept_done (w : Word) : (s.accept w).done = false := rfl
@[simp] theorem State.accept_err (w : Word) : (s.accept w).err = false := rfl
@[simp] theorem State.accept_ovr (w : Word) : (s.accept w).ovr = s.ovr := rfl
@[simp] theorem State.accept_errCode (w : Word) : (s.accept w).errCode = 0#4 := rfl
@[simp] theorem State.accept_fmtCause (w : Word) : (s.accept w).fmtCause = 0#4 := rfl
@[simp] theorem State.accept_gv (w : Word) : (s.accept w).gv = s.gv := rfl
@[simp] theorem State.accept_irqEn (w : Word) : (s.accept w).irqEn = s.irqEn := rfl
@[simp] theorem State.accept_srcLen (w : Word) : (s.accept w).srcLen = s.srcLen := rfl
@[simp] theorem State.accept_srcBase (w : Word) : (s.accept w).srcBase = s.srcBase := rfl
@[simp] theorem State.accept_dstBase (w : Word) : (s.accept w).dstBase = s.dstBase := rfl
@[simp] theorem State.accept_width (w : Word) : (s.accept w).width = s.width := rfl
@[simp] theorem State.accept_height (w : Word) : (s.accept w).height = s.height := rfl
@[simp] theorem State.accept_qx (w : Word) : (s.accept w).qx = s.qx := rfl
@[simp] theorem State.accept_qy (w : Word) : (s.accept w).qy = s.qy := rfl
@[simp] theorem State.accept_result (w : Word) : (s.accept w).result = s.result := rfl
@[simp] theorem State.accept_sprInfo (w : Word) : (s.accept w).sprInfo = s.sprInfo := rfl
@[simp] theorem State.accept_lat (w : Word) : (s.accept w).lat = s.latchesFor w := rfl
@[simp] theorem State.accept_grid (w : Word) : (s.accept w).grid = s.grid := rfl
@[simp] theorem State.accept_src (w : Word) : (s.accept w).src = s.src := rfl
@[simp] theorem State.accept_frame (w : Word) : (s.accept w).frame = s.frame := rfl
@[simp] theorem State.accept_events (w : Word) : (s.accept w).events = s.events := rfl
@[simp] theorem State.accept_replies (w : Word) : (s.accept w).replies = s.replies := rfl
@[simp] theorem State.accept_draws (w : Word) : (s.accept w).draws = s.draws := rfl

/-! A host read's return. -/

@[simp] theorem State.reply_params (r : Reply) : (s.reply r).params = s.params := rfl
@[simp] theorem State.reply_phase (r : Reply) : (s.reply r).phase = s.phase := rfl
@[simp] theorem State.reply_done (r : Reply) : (s.reply r).done = s.done := rfl
@[simp] theorem State.reply_err (r : Reply) : (s.reply r).err = s.err := rfl
@[simp] theorem State.reply_ovr (r : Reply) : (s.reply r).ovr = s.ovr := rfl
@[simp] theorem State.reply_errCode (r : Reply) : (s.reply r).errCode = s.errCode := rfl
@[simp] theorem State.reply_fmtCause (r : Reply) : (s.reply r).fmtCause = s.fmtCause := rfl
@[simp] theorem State.reply_gv (r : Reply) : (s.reply r).gv = s.gv := rfl
@[simp] theorem State.reply_irqEn (r : Reply) : (s.reply r).irqEn = s.irqEn := rfl
@[simp] theorem State.reply_srcLen (r : Reply) : (s.reply r).srcLen = s.srcLen := rfl
@[simp] theorem State.reply_srcBase (r : Reply) : (s.reply r).srcBase = s.srcBase := rfl
@[simp] theorem State.reply_dstBase (r : Reply) : (s.reply r).dstBase = s.dstBase := rfl
@[simp] theorem State.reply_width (r : Reply) : (s.reply r).width = s.width := rfl
@[simp] theorem State.reply_height (r : Reply) : (s.reply r).height = s.height := rfl
@[simp] theorem State.reply_qx (r : Reply) : (s.reply r).qx = s.qx := rfl
@[simp] theorem State.reply_qy (r : Reply) : (s.reply r).qy = s.qy := rfl
@[simp] theorem State.reply_result (r : Reply) : (s.reply r).result = s.result := rfl
@[simp] theorem State.reply_sprInfo (r : Reply) : (s.reply r).sprInfo = s.sprInfo := rfl
@[simp] theorem State.reply_lat (r : Reply) : (s.reply r).lat = s.lat := rfl
@[simp] theorem State.reply_grid (r : Reply) : (s.reply r).grid = s.grid := rfl
@[simp] theorem State.reply_src (r : Reply) : (s.reply r).src = s.src := rfl
@[simp] theorem State.reply_frame (r : Reply) : (s.reply r).frame = s.frame := rfl
@[simp] theorem State.reply_events (r : Reply) : (s.reply r).events = s.events := rfl
@[simp] theorem State.reply_replies (r : Reply) : (s.reply r).replies = s.replies ++ [r] := rfl
@[simp] theorem State.reply_draws (r : Reply) : (s.reply r).draws = s.draws := rfl

/-! Taking the oldest event. -/

@[simp] theorem State.popped_params : s.popped.params = s.params := rfl
@[simp] theorem State.popped_phase : s.popped.phase = s.phase := rfl
@[simp] theorem State.popped_done : s.popped.done = s.done := rfl
@[simp] theorem State.popped_err : s.popped.err = s.err := rfl
@[simp] theorem State.popped_ovr : s.popped.ovr = s.ovr := rfl
@[simp] theorem State.popped_errCode : s.popped.errCode = s.errCode := rfl
@[simp] theorem State.popped_fmtCause : s.popped.fmtCause = s.fmtCause := rfl
@[simp] theorem State.popped_gv : s.popped.gv = s.gv := rfl
@[simp] theorem State.popped_irqEn : s.popped.irqEn = s.irqEn := rfl
@[simp] theorem State.popped_srcLen : s.popped.srcLen = s.srcLen := rfl
@[simp] theorem State.popped_srcBase : s.popped.srcBase = s.srcBase := rfl
@[simp] theorem State.popped_dstBase : s.popped.dstBase = s.dstBase := rfl
@[simp] theorem State.popped_width : s.popped.width = s.width := rfl
@[simp] theorem State.popped_height : s.popped.height = s.height := rfl
@[simp] theorem State.popped_qx : s.popped.qx = s.qx := rfl
@[simp] theorem State.popped_qy : s.popped.qy = s.qy := rfl
@[simp] theorem State.popped_result : s.popped.result = s.result := rfl
@[simp] theorem State.popped_sprInfo : s.popped.sprInfo = s.sprInfo := rfl
@[simp] theorem State.popped_lat : s.popped.lat = s.lat := rfl
@[simp] theorem State.popped_grid : s.popped.grid = s.grid := rfl
@[simp] theorem State.popped_src : s.popped.src = s.src := rfl
@[simp] theorem State.popped_frame : s.popped.frame = s.frame := rfl
@[simp] theorem State.popped_events : s.popped.events = s.events.tail := rfl
@[simp] theorem State.popped_replies : s.popped.replies = s.replies := rfl
@[simp] theorem State.popped_draws : s.popped.draws = s.draws := rfl

end Sys2Proof.Machine
end

