-- ==== Sys2Proof/Laws/Unpack.lean ====
section
/-! SUPPORT. What `unpack` and `unpackFrames` do: the closed forms of 41_bitplane_unpacker.md R124 and
42_sprite_decoder.md R146, their frame, and when they fault. -/

namespace Sys2Proof.Machine

/-- Every sample is 0x00 or 0xFF (R121). -/
theorem unpack8_values (v : Byte) (m : Bool) (b : Nat) :
    unpack8 v m b = 0x00#8 ∨ unpack8 v m b = 0xFF#8 := by
  unfold unpack8; split <;> simp

/-- `buf` depends on the latched start and SRC alone, and gives the SRC byte where it has a value. -/
theorem State.buf_eq_ok {s : State} {k : Nat} {v : Byte} :
    s.buf k = .ok v ↔ s.src.read (s.bufStart + k) = some v := by
  unfold State.buf; split <;> simp_all

theorem State.buf_error {s : State} {k : Nat} {f : Fault} (h : s.buf k = .error f) :
    f = .srcByteNoValue := by
  unfold State.buf at h; split at h <;> cases h; rfl

theorem State.buf_eq_error {s : State} {k : Nat} :
    s.buf k = .error .srcByteNoValue ↔ s.src.read (s.bufStart + k) = none := by
  unfold State.buf; split <;> simp_all

/-- The samples written once columns 0..x-1 and rows 0..y-1 of column x are done; `val j` is the sample of
pixel offset j, and the bytes of `fr0` stand everywhere else. -/
structure Written (W H d0 : Nat) (val : Nat → Byte) (fr0 : Memory) (x y : Nat) (fr : Memory) : Prop where
  inside  : ∀ j, j < W * H → (j % W < x ∨ j % W = x ∧ j / W < y) → fr.read (d0 + j) = some (val j)
  outside : ∀ a, (∀ j, j < W * H → (j % W < x ∨ j % W = x ∧ j / W < y) → a ≠ d0 + j) →
    fr.read a = fr0.read a

theorem Written.nextColumn {W H d0 : Nat} {val : Nat → Byte} {fr0 fr : Memory} {x : Nat}
    (h : Written W H d0 val fr0 x H fr) : Written W H d0 val fr0 (x + 1) 0 fr := by
  have key : ∀ j, j < W * H → ((j % W < x + 1 ∨ j % W = x + 1 ∧ j / W < 0) ↔
      (j % W < x ∨ j % W = x ∧ j / W < H)) := fun j hj => by
    have : j / W < H := Nat.div_lt_of_lt_mul hj
    generalize j / W = q at *
    omega
  exact ⟨fun j hj hd => h.inside j hj ((key j hj).1 hd),
    fun a ha => h.outside a fun j hj hd => ha j hj ((key j hj).2 hd)⟩

theorem Written.pixel {W H d0 : Nat} {val : Nat → Byte} {fr0 fr : Memory} {x y : Nat}
    (h : Written W H d0 val fr0 x y fr) (hx : x < W) (hy : y < H) {v : Byte}
    (hv : val (y * W + x) = v) :
    Written W H d0 val fr0 x (y + 1) (fr.write (d0 + y * W + x) v) := by
  have hmod : (y * W + x) % W = x := by
    rw [Nat.add_comm, Nat.add_mul_mod_self_right, Nat.mod_eq_of_lt hx]
  have hdiv : (y * W + x) / W = y := by
    rw [Nat.mul_comm, Nat.mul_add_div (by omega), Nat.div_eq_of_lt hx, Nat.add_zero]
  have hlt : y * W + x < W * H := by
    have : y * W + W ≤ W * H := by
      rw [← Nat.succ_mul, Nat.mul_comm W]; exact Nat.mul_le_mul_right W hy
    omega
  have key : ∀ j, j % W = x → j / W = y → j = y * W + x := fun j h1 h2 => by
    have := Nat.div_add_mod j W; rw [h1, h2, Nat.mul_comm] at this; exact this.symm
  constructor
  · intro j hj hd
    rw [Memory.read_write]
    split
    · have : j = y * W + x := by omega
      rw [this, hv]
    · have hne : j ≠ y * W + x := by omega
      rcases hd with hd | ⟨h1, h2⟩
      · exact h.inside j hj (.inl hd)
      · exact h.inside j hj
          (.inr ⟨h1, Nat.lt_of_le_of_ne (Nat.lt_succ_iff.1 h2) fun he => hne (key j h1 he)⟩)
  · intro a ha
    rw [Memory.read_write_other _ _ (by
      have := ha _ hlt (.inr ⟨hmod, by omega⟩); omega)]
    exact h.outside a fun j hj hd => ha j hj (hd.imp_right fun h => ⟨h.1, Nat.lt_succ_of_lt h.2⟩)

/-- The byte index of column x and byte-row r lies in the packed frame (R122). -/
theorem packed_index_lt {W H x r : Nat} (hx : x < W) (hr : r < H / 8) (h8 : H % 8 = 0) :
    r * W + x < W * H / 8 := by
  have h1 : W * H / 8 = H / 8 * W := by
    rw [Nat.mul_div_assoc _ (Nat.dvd_of_mod_eq_zero h8), Nat.mul_comm]
  have : (r + 1) * W ≤ H / 8 * W := Nat.mul_le_mul_right W hr
  rw [Nat.succ_mul] at this; omega

/-- `Unpack` on a packed frame whose bytes `val` are all there: the closed form of R124 at pixel offset
j = y*W + x, every other byte as before, and the canonical form kept. -/
theorem unpack_spec {s : State} {k0 W H d0 : Nat} {m : Bool} {fr0 : Memory} {byte : Nat → Byte}
    (h8 : H % 8 = 0) (hbuf : ∀ k, k < W * H / 8 → s.buf (k0 + k) = .ok (byte k)) :
    ∃ fr, unpack s k0 W H m d0 fr0 = .ok fr ∧
      (∀ j, j < W * H → fr.read (d0 + j) = some (unpack8 (byte (j / W / 8 * W + j % W)) m (j / W % 8))) ∧
      (∀ a, (a < d0 ∨ d0 + W * H ≤ a) → fr.read a = fr0.read a) := by
  let val := fun j => unpack8 (byte (j / W / 8 * W + j % W)) m (j / W % 8)
  have hH : H / 8 * 8 = H := Nat.div_mul_cancel (Nat.dvd_of_mod_eq_zero h8)
  obtain ⟨fr, he, hw⟩ := forRange_ok (n := W) (a := fr0)
    (body := fun x fr => forRange (fun r fr =>
      match s.buf (k0 + r * W + x) with
      | .error f => .error f
      | .ok v => forRange (fun b fr => .ok (fr.write (d0 + (r * 8 + b) * W + x) (unpack8 v m b))) 8 fr)
      (H / 8) fr)
    (fun x fr => Written W H d0 val fr0 x 0 fr)
    ⟨fun j _ hd => absurd hd (by simp), fun a _ => rfl⟩
    (by
      intro x fr hx hwx
      obtain ⟨fr', he, hw⟩ := forRange_ok (n := H / 8) (a := fr)
        (body := fun r fr =>
          match s.buf (k0 + r * W + x) with
          | .error f => .error f
          | .ok v =>
            forRange (fun b fr => .ok (fr.write (d0 + (r * 8 + b) * W + x) (unpack8 v m b))) 8 fr)
        (fun r fr => Written W H d0 val fr0 x (r * 8) fr) (by simpa using hwx)
        (by
          intro r fr hr hwr
          have hb := hbuf _ (packed_index_lt hx hr h8)
          rw [← Nat.add_assoc] at hb
          simp only [hb]
          have := forRange_ok (n := 8) (a := fr)
            (body := fun b fr => .ok (fr.write (d0 + (r * 8 + b) * W + x)
              (unpack8 (byte (r * W + x)) m b)))
            (fun b fr => Written W H d0 val fr0 x (r * 8 + b) fr) hwr
            (by
              intro b fr hb hwb
              refine ⟨_, rfl, hwb.pixel hx (by omega) ?_⟩
              have hmod : ((r * 8 + b) * W + x) % W = x := by
                rw [Nat.add_comm, Nat.add_mul_mod_self_right, Nat.mod_eq_of_lt hx]
              have hdiv : ((r * 8 + b) * W + x) / W = r * 8 + b := by
                rw [Nat.mul_comm, Nat.mul_add_div (by omega), Nat.div_eq_of_lt hx, Nat.add_zero]
              have h1 : (r * 8 + b) / 8 = r := by omega
              have h2 : (r * 8 + b) % 8 = b := by omega
              simp only [val, hmod, hdiv, h1, h2])
          simpa [Nat.succ_mul] using this)
      rw [hH] at hw
      exact ⟨fr', he, hw.nextColumn⟩)
  refine ⟨fr, he, fun j hj => ?_, fun a ha => ?_⟩
  · have hW : 0 < W := Nat.pos_of_ne_zero fun h => by simp [h] at hj
    exact hw.inside j hj (.inl (Nat.mod_lt _ hW))
  · exact hw.outside a fun j hj _ => by omega

/-- `Unpack` faults when a byte of the packed frame has no value (R122, R67). -/
theorem unpack_fails {s : State} {k0 W H d0 k : Nat} {m : Bool} (h8 : H % 8 = 0) (hk : k < W * H / 8)
    (hbad : s.buf (k0 + k) = .error .srcByteNoValue) (fr : Memory) :
    ∃ f, unpack s k0 W H m d0 fr = .error f := by
  have hW : 0 < W := Nat.pos_of_ne_zero fun h => by simp [h] at hk
  have hr : k / W < H / 8 := by
    apply Nat.div_lt_of_lt_mul
    rwa [← Nat.mul_div_assoc _ (Nat.dvd_of_mod_eq_zero h8)]
  refine forRange_fails (i := k % W) (Nat.mod_lt _ hW) (fun fr => ?_) fr
  refine forRange_fails (i := k / W) hr (fun fr => ?_) fr
  have : k0 + k / W * W + k % W = k0 + k := by have := Nat.div_add_mod k W; rw [Nat.mul_comm] at this; omega
  simp [this, hbad]

/-- The only fault of `Unpack` is an unwritten SRC byte (R67). -/
theorem unpack_error {s : State} {k0 W H d0 : Nat} {m : Bool} {fr : Memory} {f : Fault}
    (h : unpack s k0 W H m d0 fr = .error f) : f = .srcByteNoValue := by
  refine forRange_error (· = .srcByteNoValue) h fun x fr f _ h => ?_
  refine forRange_error (· = .srcByteNoValue) h fun r fr f _ h => ?_
  split at h
  · cases h; exact State.buf_error ‹_›
  · exact forRange_error (· = .srcByteNoValue) h fun b fr f _ h => by cases h

/-- What every sample write keeps, `Unpack` keeps: it writes samples 0x00 and 0xFF to d0..d0+W*H-1 only. -/
theorem unpack_keeps {s : State} {k0 W H d0 : Nat} {m : Bool} {fr fr' : Memory} (P : Memory → Prop)
    (h : unpack s k0 W H m d0 fr = .ok fr') (h0 : P fr) (h8 : H % 8 = 0)
    (hw : ∀ fr a v, d0 ≤ a → a < d0 + W * H → (v = 0x00#8 ∨ v = 0xFF#8) → P fr → P (fr.write a v)) :
    P fr' := by
  refine forRange_keeps P h h0 fun x fr fr' hx hP h => ?_
  refine forRange_keeps P h hP fun r fr fr' hr hP h => ?_
  split at h
  · cases h
  · refine forRange_keeps P h hP fun b fr fr' hb hP h => ?_
    cases h
    refine hw _ _ _ (by omega) ?_ (unpack8_values ..) hP
    have h1 : (r * 8 + b + 1) * W ≤ H * W := Nat.mul_le_mul_right W (by omega)
    rw [Nat.succ_mul, Nat.mul_comm H] at h1; omega

/-- The loop of SPRITE on a buffer whose frame bytes `byte` are all there: the closed form of R146 at frame
i and pixel offset j, and every byte outside the n frames as before. -/
theorem unpackFrames_spec {s : State} {n W H : Nat} {m : Bool} {byte : Nat → Byte} (h8 : H % 8 = 0)
    (hbuf : ∀ k, k < n * frameBytes W H → s.buf (2 + k) = .ok (byte k)) :
    ∃ fr, unpackFrames s n W H m = .ok fr ∧
      (∀ i j, i < n → j < W * H → fr.read (s.outStart + i * W * H + j) =
        some (unpack8 (byte (i * frameBytes W H + (j / W / 8 * W + j % W))) m (j / W % 8))) ∧
      (∀ a, (a < s.outStart ∨ s.outStart + n * W * H ≤ a) → fr.read a = s.frame.read a) := by
  obtain ⟨fr, he, h1, h2⟩ := forRange_ok (n := n) (a := s.frame)
    (body := fun i fr => unpack s (2 + i * frameBytes W H) W H m (s.outStart + i * W * H) fr)
    (fun n fr => (∀ i j, i < n → j < W * H → fr.read (s.outStart + i * W * H + j) =
        some (unpack8 (byte (i * frameBytes W H + (j / W / 8 * W + j % W))) m (j / W % 8))) ∧
      (∀ a, (a < s.outStart ∨ s.outStart + n * W * H ≤ a) → fr.read a = s.frame.read a))
    ⟨fun i j hi => absurd hi (Nat.not_lt_zero i), fun a _ => rfl⟩
    (by
      intro i fr hi ⟨hin, hout⟩
      obtain ⟨fr', he, h1, h2⟩ := unpack_spec (s := s) (k0 := 2 + i * frameBytes W H)
        (W := W) (H := H)
        (d0 := s.outStart + i * W * H) (m := m) (fr0 := fr)
        (byte := fun k => byte (i * frameBytes W H + k)) h8 (by
          intro k hk
          rw [Nat.add_assoc]
          refine hbuf _ ?_
          have : (i + 1) * frameBytes W H ≤ n * frameBytes W H := Nat.mul_le_mul_right _ hi
          rw [Nat.succ_mul] at this
          simp only [frameBytes] at *
          omega)
      have hs : (i + 1) * W * H = i * W * H + W * H := by rw [Nat.succ_mul, Nat.add_mul]
      refine ⟨fr', he, fun i' j hi' hj => ?_, fun a ha => ?_⟩
      · rcases Nat.lt_or_ge i' i with h | h
        · have hle : (i' + 1) * W * H ≤ i * W * H :=
            Nat.mul_le_mul_right H (Nat.mul_le_mul_right W h)
          rw [Nat.succ_mul, Nat.add_mul] at hle
          rw [h2 _ (.inl (by omega))]
          exact hin i' j h hj
        · obtain rfl : i' = i := by omega
          exact h1 j hj
      · rw [h2 a (by omega)]
        exact hout a (by omega))
  exact ⟨fr, he, h1, h2⟩

/-- SPRITE's loop faults when a byte of one of its frames has no value (R67). -/
theorem unpackFrames_fails {s : State} {n W H k : Nat} {m : Bool} (h8 : H % 8 = 0)
    (hk : k < n * frameBytes W H) (hbad : s.buf (2 + k) = .error .srcByteNoValue) :
    ∃ f, unpackFrames s n W H m = .error f := by
  have hf : 0 < frameBytes W H := Nat.pos_of_ne_zero fun h => by simp [h] at hk
  refine forRange_fails (i := k / frameBytes W H)
    (Nat.div_lt_of_lt_mul (by rwa [Nat.mul_comm])) (fun fr => ?_) _
  refine unpack_fails h8 (Nat.mod_lt k hf) ?_ fr
  have := Nat.div_add_mod k (frameBytes W H)
  rw [Nat.mul_comm] at this
  rw [Nat.add_assoc]; simp only [frameBytes] at this ⊢; rw [this]; exact hbad

theorem unpackFrames_error {s : State} {n W H : Nat} {m : Bool} {f : Fault}
    (h : unpackFrames s n W H m = .error f) : f = .srcByteNoValue :=
  forRange_error (· = .srcByteNoValue) h fun _ _ _ _ h => unpack_error h

/-- What every sample write keeps, SPRITE's loop keeps. -/
theorem unpackFrames_keeps {s : State} {n W H : Nat} {m : Bool} {fr' : Memory} (P : Memory → Prop)
    (h : unpackFrames s n W H m = .ok fr') (h0 : P s.frame) (h8 : H % 8 = 0)
    (hw : ∀ fr a v, s.outStart ≤ a → a < s.outStart + n * W * H → (v = 0x00#8 ∨ v = 0xFF#8) → P fr →
      P (fr.write a v)) : P fr' := by
  refine forRange_keeps P h h0 fun i fr fr' hi hP h => ?_
  refine unpack_keeps P h hP h8 fun fr a v h1 h2 hv hP => hw _ _ _ (by omega) ?_ hv hP
  have hle : (i + 1) * W * H ≤ n * W * H := Nat.mul_le_mul_right H (Nat.mul_le_mul_right W hi)
  rw [Nat.succ_mul, Nat.add_mul] at hle
  omega

end Sys2Proof.Machine
end

