-- ==== Sys2Proof/Laws/Tiler.lean ====
section
/-! SUPPORT. What `loadCells`, `solidAt` and `tileIndexAt` do (43_tilemap_auto_tiler.md R160 to R163). -/

namespace Sys2Proof.Machine

/-- CELLS' loop on an occupancy region whose bytes `byte` are all there: cell k of the row-major grid is
bit k mod 8 of byte k div 8 (R160, R161). -/
theorem loadCells_spec {s : State} {byte : Nat → Byte}
    (hbuf : ∀ k, k < s.params.lcb → s.buf k = .ok (byte k)) :
    ∃ g, loadCells s = .ok g ∧ g.length = s.params.lw * s.params.lh ∧
      ∀ k, k < s.params.lw * s.params.lh → g[k]? = some ((byte (k / 8)).getLsbD (k % 8)) := by
  obtain ⟨g, he, hl, hg⟩ := forRange_ok (n := s.params.lw * s.params.lh) (a := ([] : List Bool))
    (body := fun k cells =>
      match s.cellBit k with
      | .ok c    => .ok (cells ++ [c])
      | .error f => .error f)
    (fun n g => g.length = n ∧ ∀ k, k < n → g[k]? = some ((byte (k / 8)).getLsbD (k % 8)))
    ⟨rfl, fun k hk => absurd hk (Nat.not_lt_zero k)⟩
    (by
      intro k g hk ⟨hl, hg⟩
      have hc : s.cellBit k = .ok ((byte (k / 8)).getLsbD (k % 8)) := by
        simp [State.cellBit, hbuf _ (s.params.cell_byte_lt hk)]
      refine ⟨g ++ [(byte (k / 8)).getLsbD (k % 8)], by simp [hc], by simp [hl], fun k' hk' => ?_⟩
      rcases Nat.lt_or_ge k' k with h | h
      · rw [List.getElem?_append_left (by omega)]; exact hg k' h
      · obtain rfl : k' = k := by omega
        simp [← hl])
  exact ⟨g, he, hl, hg⟩

/-- A loaded grid has LW*LH cells (10_state.md R43). -/
theorem loadCells_length {s : State} {g : List Bool} (h : loadCells s = .ok g) :
    g.length = s.params.lw * s.params.lh :=
  forRange_inv (fun n (g : List Bool) => g.length = n) h rfl fun k g g' _ hl h => by
    split at h <;> cases h
    simp [hl]

theorem loadCells_error {s : State} {f : Fault} (h : loadCells s = .error f) : f = .srcByteNoValue :=
  forRange_error (· = .srcByteNoValue) h fun k g f _ h => by
    split at h
    · cases h
    · cases h
      have h := ‹s.cellBit k = _›
      simp only [State.cellBit] at h
      split at h
      · cases h
      · cases h; exact State.buf_error ‹_›

/-- CELLS' loop faults when a byte of the occupancy region has no value (R161, R67). -/
theorem loadCells_fails {s : State} {k : Nat} (hk : k < s.params.lcb)
    (hbad : s.buf k = .error .srcByteNoValue) : ∃ f, loadCells s = .error f := by
  rw [s.params.lcb_eq] at hk
  refine forRange_fails (i := 8 * k) (by omega) (fun g => ?_) _
  have : 8 * k / 8 = k := by omega
  simp [State.cellBit, this, hbad]

/-- The bounds policy of R162, case by case. -/
theorem solidAt_corner {p : Params} {g : List Bool} {x y : Int} (hx : hOob p x) (hy : vOob p y) :
    solidAt p g x y = some p.cornerOobSolid := if_pos ⟨hx, hy⟩

theorem solidAt_hOob {p : Params} {g : List Bool} {x y : Int} (hx : hOob p x) (hy : ¬vOob p y) :
    solidAt p g x y = some true := by
  unfold solidAt; rw [if_neg fun h => hy h.2, if_pos hx]

theorem solidAt_vOob {p : Params} {g : List Bool} {x y : Int} (hx : ¬hOob p x) (hy : vOob p y) :
    solidAt p g x y = some false := by
  unfold solidAt; rw [if_neg fun h => hx h.1, if_neg hx, if_pos hy]

theorem solidAt_inside {p : Params} {g : List Bool} {x y : Int} (hx : ¬hOob p x) (hy : ¬vOob p y) :
    solidAt p g x y = gridCell p g x y := by
  unfold solidAt; rw [if_neg fun h => hx h.1, if_neg hx, if_neg hy]

/-- A cell of the grid has its index below LW*LH (R160). -/
theorem cell_index_lt {p : Params} {x y : Int} (hx : ¬hOob p x) (hy : ¬vOob p y) :
    (y * p.lw + x).toNat < p.lw * p.lh := by
  simp only [hOob, vOob, not_or, not_lt, ge_iff_le, not_le] at hx hy
  obtain ⟨x, rfl⟩ := Int.eq_ofNat_of_zero_le hx.1
  obtain ⟨y, rfl⟩ := Int.eq_ofNat_of_zero_le hy.1
  have hx := Int.ofNat_lt.1 hx.2
  have hy := Int.ofNat_lt.1 hy.2
  have h1 : (y + 1) * p.lw ≤ p.lh * p.lw := Nat.mul_le_mul_right _ hy
  rw [Nat.succ_mul, Nat.mul_comm p.lh] at h1
  have : ((y : Int) * p.lw + x).toNat = y * p.lw + x := by
    rw [← Int.natCast_mul, ← Int.natCast_add, Int.toNat_natCast]
  omega

/-- On a loaded grid `solidAt` always answers. -/
theorem solidAt_isSome {p : Params} {g : List Bool} (hg : g.length = p.lw * p.lh) (x y : Int) :
    ∃ b, solidAt p g x y = some b := by
  by_cases hx : hOob p x <;> by_cases hy : vOob p y
  · exact ⟨_, solidAt_corner hx hy⟩
  · exact ⟨_, solidAt_hOob hx hy⟩
  · exact ⟨_, solidAt_vOob hx hy⟩
  · rw [solidAt_inside hx hy, gridCell]
    exact ⟨_, List.getElem?_eq_getElem (by rw [hg]; exact cell_index_lt hx hy)⟩

/-- R163 from the five `solidAt` answers. -/
theorem tileIndexAt_eq {p : Params} {g : List Bool} {x y : Int} {c right top left bottom : Bool}
    (hc : solidAt p g x y = some c) (hr : solidAt p g (x + 1) y = some right)
    (ht : solidAt p g x (y - 1) = some top) (hl : solidAt p g (x - 1) y = some left)
    (hb : solidAt p g x (y + 1) = some bottom) :
    tileIndexAt p g x y = some (if c then tileIndex right top left bottom else 16) := by
  cases c <;> simp [tileIndexAt, hc, hr, ht, hl, hb]

/-- The or of the four shifted bits is their sum (R163, R166). -/
theorem tileIndex_eq_sum (right top left bottom : Bool) :
    tileIndex right top left bottom =
      right.toNat + 2 * top.toNat + 4 * left.toNat + 8 * bottom.toNat := by
  cases right <;> cases top <;> cases left <;> cases bottom <;> rfl

theorem tileIndexAt_isSome {p : Params} {g : List Bool} (hg : g.length = p.lw * p.lh) (x y : Int) :
    ∃ t, tileIndexAt p g x y = some t := by
  obtain ⟨c, hc⟩ := solidAt_isSome hg x y
  obtain ⟨r, hr⟩ := solidAt_isSome hg (x + 1) y
  obtain ⟨t, ht⟩ := solidAt_isSome hg x (y - 1)
  obtain ⟨l, hl⟩ := solidAt_isSome hg (x - 1) y
  obtain ⟨b, hb⟩ := solidAt_isSome hg x (y + 1)
  exact ⟨_, tileIndexAt_eq hc hr ht hl hb⟩

end Sys2Proof.Machine
end

