-- ==== Sys2Proof/Laws/Exec.lean ====
section
/-! SUPPORT. What a command can do, said once: the inversion of `exec` (`exec_next_cases`,
`exec_fault_cases`, `exec_not_refused`), which every claim over all commands cites. -/

namespace Sys2Proof.Machine

/-- Everything `r`, a command's result from `s`, can be. `wF`, `wG`, `wS` say whether the command may write
FRAME, GRID and GV, and SPR_INFO. -/
inductive CmdEffect (s : State) (wF wG wS : Prop) : CmdResult → Prop where
  | error (e : CmdError) : ¬wG → CmdEffect s wF wG wS (.error e s)
  | errorClear (e : CmdError) : wG → CmdEffect s wF wG wS (.error e { s with gv := false })
  | srcFault : CmdEffect s wF wG wS (.fault .srcByteNoValue)
  | gridFault : s.gv = true → s.grid.length ≠ s.params.lw * s.params.lh →
      CmdEffect s wF wG wS (.fault .gridCellNoValue)
  | ok (fr : Memory) (g : List Bool) (v : Bool) (r i : Word)
      (hF : ∀ P : Memory → Prop, P s.frame → (∀ fr a v, a < s.params.frameSize →
        (v = 0x00#8 ∨ v = 0xFF#8) → P fr → P (fr.write a v)) → P fr)
      (hnF : ¬wF → fr = s.frame) (hnG : ¬wG → g = s.grid ∧ v = s.gv)
      (hG : wG → v = true ∧ g.length = s.params.lw * s.params.lh) (hnS : ¬wS → i = s.sprInfo) :
      CmdEffect s wF wG wS
        (.ok { s with frame := fr, grid := g, gv := v, result := r, sprInfo := i })

theorem nop_effect (s : State) : CmdEffect s False False False (nop s) :=
  .ok s.frame s.grid s.gv _ s.sprInfo (fun _ h _ => h) (fun _ => rfl) (fun _ => ⟨rfl, rfl⟩) False.elim
    fun _ => rfl

theorem plane_effect (m : Bool) (s : State) : CmdEffect s True False False (plane m s) := by
  unfold plane
  split; · exact .error _ id
  split; · exact .error _ id
  split; · exact .error _ id
  split; · exact .error _ id
  split; · exact .error _ id
  split
  · have hf := unpack_error ‹_›; subst hf; exact .srcFault
  · refine .ok _ s.grid s.gv _ s.sprInfo (fun P h0 hw => ?_) (fun h => absurd trivial h)
      (fun _ => ⟨rfl, rfl⟩) False.elim fun _ => rfl
    exact unpack_keeps P ‹_› h0 (by omega) fun fr a v _ h2 hv hP => hw fr a v (by omega) hv hP

theorem spriteBody_effect (m : Bool) (W H : Nat) (s : State) :
    CmdEffect s True False True (spriteBody m W H s) := by
  unfold spriteBody
  split; · exact .error _ id
  split; · exact .error _ id
  split; · exact .error _ id
  split; · exact .error _ id
  split
  · have hf := unpackFrames_error ‹_›; subst hf; exact .srcFault
  · refine .ok _ s.grid s.gv _ _ (fun P h0 hw => ?_) (fun h => absurd trivial h)
      (fun _ => ⟨rfl, rfl⟩) False.elim fun h => absurd trivial h
    exact unpackFrames_keeps P ‹_› h0 (by omega) fun fr a v _ h2 hv hP => hw fr a v (by omega) hv hP

theorem sprite_effect (m : Bool) (s : State) : CmdEffect s True False True (sprite m s) := by
  unfold sprite
  split; · exact .error _ id
  split; · exact .error _ id
  split
  · exact spriteBody_effect ..
  · have hf := State.buf_error ‹_›; subst hf; exact .srcFault
  · have hf := State.buf_error ‹_›; subst hf; exact .srcFault

theorem cells_effect (s : State) : CmdEffect s False True False (cells s) := by
  unfold cells
  split; · exact .errorClear _ trivial
  split; · exact .errorClear _ trivial
  split
  · have hf := loadCells_error ‹_›; subst hf; exact .srcFault
  · exact .ok s.frame _ true _ s.sprInfo (fun _ h _ => h) (fun _ => rfl) (fun h => absurd trivial h)
      (fun _ => ⟨rfl, loadCells_length ‹_›⟩) fun _ => rfl

theorem query_effect (s : State) (r : Word) :
    CmdEffect s False False False (.ok { s with result := r }) :=
  .ok s.frame s.grid s.gv _ s.sprInfo (fun _ h _ => h) (fun _ => rfl) (fun _ => ⟨rfl, rfl⟩) False.elim
    fun _ => rfl

theorem solid_effect (s : State) : CmdEffect s False False False (solid s) := by
  unfold solid
  split
  · split
    · exact query_effect ..
    · refine .gridFault ‹_› fun hg => ?_
      obtain ⟨b, hb⟩ := solidAt_isSome hg s.queryX s.queryY
      simp_all
  · exact .error _ id

theorem tile_effect (s : State) : CmdEffect s False False False (tile s) := by
  unfold tile
  split
  · split
    · exact query_effect ..
    · refine .gridFault ‹_› fun hg => ?_
      obtain ⟨b, hb⟩ := tileIndexAt_isSome hg s.queryX s.queryY
      simp_all
  · exact .error _ id

/-- The command's result before its completion. -/
def cmdResult (i : Instr) (s : State) : CmdResult :=
  match i with
  | .nop     => nop s
  | .plane   => plane false s
  | .planeM  => plane true s
  | .sprite  => sprite false s
  | .spriteM => sprite true s
  | .cells   => cells s
  | .solid   => solid s
  | .tile    => tile s

theorem exec_eq_complete (i : Instr) (s : State) : exec i s = complete (cmdResult i s) := by
  cases i <;> rfl

theorem result_effect (i : Instr) (s : State) :
    CmdEffect s i.writesFrame (i = .cells) i.writesInfo (cmdResult i s) := by
  cases i
  · simpa [Instr.writesFrame, Instr.writesInfo, cmdResult] using nop_effect s
  · simpa [Instr.writesFrame, Instr.writesInfo, cmdResult] using plane_effect false s
  · simpa [Instr.writesFrame, Instr.writesInfo, cmdResult] using plane_effect true s
  · simpa [Instr.writesFrame, Instr.writesInfo, cmdResult] using sprite_effect false s
  · simpa [Instr.writesFrame, Instr.writesInfo, cmdResult] using sprite_effect true s
  · simpa [Instr.writesFrame, Instr.writesInfo, cmdResult] using cells_effect s
  · simpa [Instr.writesFrame, Instr.writesInfo, cmdResult] using solid_effect s
  · simpa [Instr.writesFrame, Instr.writesInfo, cmdResult] using tile_effect s

/-- Where a command completes, it ended with an error (CELLS clearing GV) or wrote what it may write. -/
theorem exec_next_cases {i : Instr} {s t : State} (h : exec i s = .next t) :
    (∃ e, t = State.finishError e { s with gv := if i = .cells then false else s.gv }) ∨
    (∃ fr g v r w, t = State.finish { s with frame := fr, grid := g, gv := v, result := r, sprInfo := w } ∧
      (∀ P : Memory → Prop, P s.frame → (∀ fr a v, a < s.params.frameSize →
        (v = 0x00#8 ∨ v = 0xFF#8) → P fr → P (fr.write a v)) → P fr) ∧
      (¬i.writesFrame → fr = s.frame) ∧ (i ≠ .cells → g = s.grid ∧ v = s.gv) ∧
      (i = .cells → v = true ∧ g.length = s.params.lw * s.params.lh) ∧
      (¬i.writesInfo → w = s.sprInfo)) := by
  rw [exec_eq_complete] at h
  have he := result_effect i s
  generalize cmdResult i s = r at h he
  cases he with
  | error e hg => cases h; exact .inl ⟨e, by rw [if_neg hg]⟩
  | errorClear e hg => cases h; exact .inl ⟨e, by rw [if_pos hg]⟩
  | srcFault => cases h
  | gridFault => cases h
  | ok fr g v r w hF hnF hnG hG hnS => cases h; exact .inr ⟨fr, g, v, r, w, rfl, hF, hnF, hnG, hG, hnS⟩

/-- A command's fault is an unwritten SRC byte, or a grid cell without a value behind GV = 1. -/
theorem exec_fault_cases {i : Instr} {s : State} {f : Fault} (h : exec i s = .fault f) :
    f = .srcByteNoValue ∨
      f = .gridCellNoValue ∧ s.gv = true ∧ s.grid.length ≠ s.params.lw * s.params.lh := by
  rw [exec_eq_complete] at h
  have he := result_effect i s
  generalize cmdResult i s = r at h he
  cases he with
  | error => cases h
  | errorClear => cases h
  | srcFault => cases h; exact .inl rfl
  | gridFault h1 h2 => cases h; exact .inr ⟨rfl, h1, h2⟩
  | ok => cases h

/-- No command is refused. -/
theorem exec_not_refused (i : Instr) (s : State) (r : Refusal) : exec i s ≠ .refused r := by
  rw [exec_eq_complete]; generalize cmdResult i s = r'; cases r' <;> simp [complete]

end Sys2Proof.Machine
end

