-- ==== Sys2Proof/Laws/Bus.lean ====
section
/-! SUPPORT. What a host transaction can do, said once (20_memory.md R60 to R69). -/

namespace Sys2Proof.Machine

theorem Reg.addr_mod (r : Reg) : r.addr % 4 = 0 := by cases r <;> rfl
theorem Reg.addr_lt (r : Reg) : r.addr < 0x100 := by cases r <;> decide

/-- No two registers share an address. -/
theorem Reg.addr_inj {r q : Reg} (h : Reg.addr r = Reg.addr q) : r = q := by
  cases r <;> cases q <;> first | rfl | (simp [Reg.addr] at h)

theorem cmd_of {r : Reg} {n : Nat} (h : n = Reg.addr r) (h2 : n = 0) : r = .cmd := Reg.addr_inj (h.symm.trans h2)
theorem status_of {r : Reg} {n : Nat} (h : n = Reg.addr r) (h2 : n = 4) : r = .status := Reg.addr_inj (h.symm.trans h2)
theorem ctrl_of {r : Reg} {n : Nat} (h : n = Reg.addr r) (h2 : n = 8) : r = .ctrl := Reg.addr_inj (h.symm.trans h2)

/-- Each register stands at its own offset, and no offset but these names one (10_state.md section 2). -/
theorem regAt_addr (r : Reg) : regAt r.addr = some r := by cases r <;> rfl

theorem regAt_eq_some {off : Nat} {r : Reg} (h : regAt off = some r) : off = r.addr := by
  unfold regAt at h
  split at h <;> cases h <;> rfl

theorem windowAt_reg {p : Params} {addr : Nat} (h : addr < 0x100) : windowAt p addr = .reg addr :=
  if_pos h

theorem windowAt_src {p : Params} {a : Nat} (h : a < 65536) :
    windowAt p (0x10000 + a) = .src a := by
  unfold windowAt; rw [if_neg (by omega), if_pos (by omega)]; rw [Nat.add_sub_cancel_left]

theorem windowAt_frame {p : Params} {a : Nat} (h : a < p.frameSize) :
    windowAt p (0x100000 + a) = .frame a := by
  unfold windowAt; rw [if_neg (by omega), if_neg (by omega), if_pos (by omega)]; rw [Nat.add_sub_cancel_left]

theorem windowAt_cases (p : Params) (addr : Nat) :
    (addr < 0x100 ∧ windowAt p addr = .reg addr) ∨
    (∃ a, a < 65536 ∧ addr = 0x10000 + a ∧ windowAt p addr = .src a) ∨
    (∃ a, a < p.frameSize ∧ addr = 0x100000 + a ∧ windowAt p addr = .frame a) ∨
    ((0x100 ≤ addr ∧ addr < 0x10000 ∨ 0x20000 ≤ addr ∧ addr < 0x100000 ∨ 0x100000 + p.frameSize ≤ addr) ∧
      windowAt p addr = .reserved) := by
  unfold windowAt
  split
  · exact .inl ⟨‹_›, rfl⟩
  split
  · exact .inr (.inl ⟨addr - 0x10000, by omega, by omega, rfl⟩)
  split
  · exact .inr (.inr (.inl ⟨addr - 0x100000, by omega, by omega, rfl⟩))
  · exact .inr (.inr (.inr ⟨by omega, rfl⟩))

theorem refuseAccess_eq (p : Params) (addr : BitVec 24) : ∃ r, refuseAccess p addr = .refused r := by
  unfold refuseAccess; split <;> exact ⟨_, rfl⟩

/-- A 32-bit access reaches the register at its address. -/
theorem busAt32_reg {addr : BitVec 24} {s : State} {f : Reg → Host.Outcome State Fault Refusal} {r : Reg}
    (h : addr.toNat = r.addr) : busAt32 addr s f = f r := by
  unfold busAt32
  rw [h, windowAt_reg r.addr_lt]
  simp [r.addr_mod, regAt_addr]

/-- An 8-bit access reaches the SRC byte at its address. -/
theorem busAt8_src {addr : BitVec 24} {s : State} {f g : Nat → Host.Outcome State Fault Refusal}
    {a : Nat} (ha : a < 65536) (h : addr.toNat = 0x10000 + a) : busAt8 addr s f g = f a := by
  unfold busAt8; rw [h, windowAt_src ha]

/-- An 8-bit access reaches the FRAME byte at its address. -/
theorem busAt8_frame {addr : BitVec 24} {s : State} {f g : Nat → Host.Outcome State Fault Refusal}
    {a : Nat} (ha : a < s.params.frameSize) (h : addr.toNat = 0x100000 + a) :
    busAt8 addr s f g = g a := by
  unfold busAt8; rw [h, windowAt_frame ha]

/-- A 32-bit access reaches a register or is refused. -/
theorem busAt32_cases (addr : BitVec 24) (s : State) (f : Reg → Host.Outcome State Fault Refusal) :
    (∃ r, addr.toNat = Reg.addr r ∧ busAt32 addr s f = f r) ∨
      (∀ r, addr.toNat ≠ Reg.addr r) ∧ ∃ e, busAt32 addr s f = .refused e := by
  by_cases h : ∃ r, addr.toNat = Reg.addr r
  · obtain ⟨r, h⟩ := h; exact .inl ⟨r, h, busAt32_reg h⟩
  · refine .inr ⟨fun r hr => h ⟨r, hr⟩, ?_⟩
    unfold busAt32
    split
    · split
      · split
        · rename_i hw _ _ r hr
          rcases windowAt_cases s.params addr.toNat with ⟨_, he⟩ | ⟨a, _, _, he⟩ | ⟨a, _, _, he⟩ | ⟨_, he⟩
          · rw [he] at hw; cases hw; exact absurd ⟨_, regAt_eq_some hr⟩ h
          all_goals rw [he] at hw; cases hw
        · exact ⟨_, rfl⟩
      · exact ⟨_, rfl⟩
    all_goals exact refuseAccess_eq _ _

/-- An 8-bit access reaches a byte of SRC, a byte of FRAME, or is refused. -/
theorem busAt8_cases (addr : BitVec 24) (s : State) (f g : Nat → Host.Outcome State Fault Refusal) :
    (∃ a, a < 65536 ∧ addr.toNat = 0x10000 + a ∧ busAt8 addr s f g = f a) ∨
    (∃ a, a < s.params.frameSize ∧ addr.toNat = 0x100000 + a ∧ busAt8 addr s f g = g a) ∨
      ((addr.toNat < 0x10000 ∨ 0x20000 ≤ addr.toNat ∧ addr.toNat < 0x100000 ∨
        0x100000 + s.params.frameSize ≤ addr.toNat) ∧ ∃ e, busAt8 addr s f g = .refused e) := by
  rcases windowAt_cases s.params addr.toNat with ⟨h, he⟩ | ⟨a, h, ha, he⟩ | ⟨a, h, ha, he⟩ | ⟨h, he⟩
  · exact .inr (.inr ⟨by omega, by unfold busAt8; rw [he]; exact refuseAccess_eq _ _⟩)
  · exact .inl ⟨a, h, ha, busAt8_src h ha⟩
  · exact .inr (.inl ⟨a, h, ha, busAt8_frame h ha⟩)
  · exact .inr (.inr ⟨by omega, by unfold busAt8; rw [he]; exact refuseAccess_eq _ _⟩)

/-- What a host transaction that answers a next state is and does: a read returns a reply and changes
nothing of the block; a write goes to one register or one byte. -/
theorem busAccess_next_cases {a : HostAccess} {s t : State} (h : busAccess a s = .next t) :
    (((∃ addr, a = .read8 addr) ∨ ∃ addr, a = .read32 addr) ∧
      ∃ r d, t = { s with replies := s.replies ++ [r], draws := d }) ∨
    (∃ addr w r, a = .write32 addr w ∧ addr.toNat = Reg.addr r ∧ t = s.writeReg r w) ∨
    (∃ addr v k, a = .write8 addr v ∧ k < 65536 ∧ addr.toNat = 0x10000 + k ∧ t = s.writeSrc k v) ∨
    (∃ addr v k, a = .write8 addr v ∧ k < s.params.frameSize ∧ addr.toNat = 0x100000 + k ∧
      t = s.writeFrame k v) := by
  cases a with
  | read8 addr =>
    refine .inl ⟨.inl ⟨addr, rfl⟩, ?_⟩
    simp only [busAccess] at h
    rcases busAt8_cases addr s (fun a => hostReadSrc a s) (fun a => hostReadFrame a s) with
      ⟨k, _, _, he⟩ | ⟨k, _, _, he⟩ | ⟨_, e, he⟩
    · rw [he] at h; unfold hostReadSrc at h; split at h <;> cases h; exact ⟨_, s.draws, rfl⟩
    · rw [he] at h; unfold hostReadFrame at h
      split at h
      · cases h; exact ⟨_, s.draws + 1, rfl⟩
      · split at h <;> cases h; exact ⟨_, s.draws, rfl⟩
    · rw [he] at h; cases h
  | read16 addr => obtain ⟨e, he⟩ := refuseAccess_eq s.params addr; simp [busAccess, he] at h
  | read32 addr =>
    refine .inl ⟨.inr ⟨addr, rfl⟩, ?_⟩
    simp only [busAccess] at h
    rcases busAt32_cases addr s (fun r => hostReadReg r s) with ⟨r, _, he⟩ | ⟨_, e, he⟩
    · rw [he] at h; cases h; exact ⟨_, s.draws, rfl⟩
    · rw [he] at h; cases h
  | write8 addr v =>
    simp only [busAccess] at h
    rcases busAt8_cases addr s (fun a => .next (s.writeSrc a v)) (fun a => .next (s.writeFrame a v)) with
      ⟨k, hk, ha, he⟩ | ⟨k, hk, ha, he⟩ | ⟨_, e, he⟩
    · rw [he] at h; cases h; exact .inr (.inr (.inl ⟨addr, v, k, rfl, hk, ha, rfl⟩))
    · rw [he] at h; cases h; exact .inr (.inr (.inr ⟨addr, v, k, rfl, hk, ha, rfl⟩))
    · rw [he] at h; cases h
  | write16 addr v => obtain ⟨e, he⟩ := refuseAccess_eq s.params addr; simp [busAccess, he] at h
  | write32 addr w =>
    simp only [busAccess] at h
    rcases busAt32_cases addr s (fun r => .next (s.writeReg r w)) with ⟨r, hr, he⟩ | ⟨_, e, he⟩
    · rw [he] at h; cases h; exact .inr (.inl ⟨addr, w, r, rfl, hr, rfl⟩)
    · rw [he] at h; cases h

end Sys2Proof.Machine
end

