-- ==== Sys2Proof/Laws/Step.lean ====
section
/-! SUPPORT. What a step can do, said once: `step_next_cases`. -/

namespace Sys2Proof.Machine

/-- Where the sequencer's turn is next, the step runs the latched command. -/
theorem step_sequencer {s : State} (h : s.SequencerTurn) : step s = runLatched s.popped := by
  obtain ⟨hb, he | he⟩ := h
  · have : s.popped = s := by cases s; simp_all [State.popped]
    rw [this]; simp [step, nextStep, he, sequencerStep, hb]
  · obtain ⟨l, hl⟩ : ∃ l, s.events = .sequencer :: l := by
      cases hs : s.events with
      | nil => simp [hs] at he
      | cons e l => simp [hs] at he; exact ⟨l, by rw [he]⟩
    simp [step, nextStep, hl, act, sequencerStep, hb, State.popped]

/-- A waiting event is taken and acts. -/
theorem step_event {s : State} {e : Event} (h : s.events.head? = some e) : step s = act e s.popped := by
  cases hs : s.events with
  | nil => simp [hs] at h
  | cons e' l => simp [hs] at h; subst h; simp [step, nextStep, hs, State.popped]

theorem step_host {s : State} {a : HostAccess} (h : s.hostNext a) : step s = busAccess a s.popped :=
  step_event h

/-- The latched command runs. -/
theorem runLatched_ok {s : State} {i : Instr} (h : s.latched i) : runLatched s = exec i s := by
  simp [runLatched, h.1, h.2]

theorem runLatched_illegal {s : State} (h : s.lat.wordOk = false) :
    runLatched s = .next (s.finishError .illegal) := by
  simp [runLatched, h, execIllegal, illegal, complete]

/-- A run of `n + 1` steps is a step and then a run of `n`. -/
theorem run_succ {n : Nat} {s t : State} (h : step s = .next t) :
    Sys2Proof.core.run (n + 1) s = Sys2Proof.core.run n t := by
  have h : Sys2Proof.core.step s = .next t := h
  simp only [Host.Core.run, h]

theorem run_one (s : State) : Sys2Proof.core.run 1 s = step s := by
  have h : Sys2Proof.core.step s = step s := rfl
  simp only [Host.Core.run, h]
  cases step s <;> rfl

/-- Everything a step that answers a next state can be. -/
theorem step_next_cases {s t : State} (h : step s = .next t) :
    (s.phase = .idle ∧ (∀ a, ¬s.hostNext a) ∧ s.events.head? ≠ some .reset ∧ t = s.popped) ∨
    (s.SequencerTurn ∧ ∃ i, s.latched i ∧ exec i s.popped = .next t) ∨
    (s.SequencerTurn ∧ s.lat.wordOk = false ∧ t = s.popped.finishError .illegal) ∨
    (s.events.head? = some .reset ∧ t = s.popped.resetInput) ∨
    (∃ a, s.hostNext a ∧ busAccess a s.popped = .next t) := by
  have seq : s.SequencerTurn → (s.SequencerTurn ∧ ∃ i, s.latched i ∧ exec i s.popped = .next t) ∨
      (s.SequencerTurn ∧ s.lat.wordOk = false ∧ t = s.popped.finishError .illegal) := fun hs => by
    rw [step_sequencer hs] at h
    cases hw : s.lat.wordOk with
    | false =>
      rw [runLatched_illegal (s := s.popped) hw] at h
      cases h; exact .inr ⟨hs, rfl, rfl⟩
    | true =>
      refine .inl ⟨hs, ?_⟩
      simp only [runLatched, State.popped_lat, hw, if_true] at h
      split at h
      · exact ⟨_, ⟨hw, ‹_›⟩, h⟩
      · cases h
  cases hs : s.events with
  | nil =>
    cases hp : s.phase with
    | idle =>
      have : s.popped = s := by cases s; simp_all [State.popped]
      simp [step, nextStep, hs, sequencerStep, hp] at h
      exact .inl ⟨rfl, by simp [State.hostNext, hs], by simp, by rw [this, h]⟩
    | busy =>
      rcases seq ⟨hp, .inl hs⟩ with h | h
      · exact .inr (.inl h)
      · exact .inr (.inr (.inl h))
  | cons e l =>
    have he : s.events.head? = some e := by simp [hs]
    cases e with
    | host a => rw [step_event he] at h; exact .inr (.inr (.inr (.inr ⟨a, he, h⟩)))
    | reset =>
      rw [step_event he] at h
      cases h; exact .inr (.inr (.inr (.inl ⟨rfl, rfl⟩)))
    | sequencer =>
      cases hp : s.phase with
      | idle =>
        rw [step_event he] at h
        simp [act, sequencerStep, hp] at h
        exact .inl ⟨rfl, by simp [State.hostNext, hs], by simp, h.symm⟩
      | busy =>
        rcases seq ⟨hp, .inr he⟩ with h | h
        · exact .inr (.inl h)
        · exact .inr (.inr (.inl h))

/-- The sequencer's turn is no host transaction and no reset, and a host transaction is no reset. -/
theorem seq_not_host {s : State} {a : HostAccess} (h : s.SequencerTurn) : ¬s.hostNext a := by
  unfold State.hostNext; rintro ha; rcases h.2 with h | h <;> simp [h] at ha

theorem seq_not_reset {s : State} (h : s.SequencerTurn) : s.events.head? ≠ some .reset := by
  rintro ha; rcases h.2 with h | h <;> simp [h] at ha

theorem host_not_reset {s : State} {a : HostAccess} (h : s.hostNext a) :
    s.events.head? ≠ some .reset := by
  unfold State.hostNext at h; rw [h]; simp

/-- A state latches one command and has one oldest event. -/
theorem latched_inj {s : State} {i j : Instr} (h : s.latched i) (h' : s.latched j) : i = j := by
  have := h.2.symm.trans h'.2; cases this; rfl

theorem hostNext_inj {s : State} {a b : HostAccess} (h : s.hostNext a) (h' : s.hostNext b) : a = b := by
  unfold State.hostNext at *; rw [h] at h'; cases h'; rfl

/-- Everything a step that answers a next state can leave, field by field: the inversion that every claim
about all steps cites. -/
inductive StepEffect (s : State) : State → Prop where
  | skip : s.phase = .idle → (∀ a, ¬s.hostNext a) → s.events.head? ≠ some .reset → StepEffect s s.popped
  | failed (i e) : s.SequencerTurn → s.latched i →
      StepEffect s (State.finishError e { s.popped with gv := if i = .cells then false else s.gv })
  | succeeded (i fr g v r w) : s.SequencerTurn → s.latched i →
      (∀ P : Memory → Prop, P s.frame → (∀ fr a v, a < s.params.frameSize →
        (v = 0x00#8 ∨ v = 0xFF#8) → P fr → P (fr.write a v)) → P fr) →
      (¬i.writesFrame → fr = s.frame) → (i ≠ .cells → g = s.grid ∧ v = s.gv) →
      (i = .cells → v = true ∧ g.length = s.params.lw * s.params.lh) →
      (¬i.writesInfo → w = s.sprInfo) →
      StepEffect s (State.finish
        { s.popped with frame := fr, grid := g, gv := v, result := r, sprInfo := w })
  | illegal : s.SequencerTurn → s.lat.wordOk = false → StepEffect s (s.popped.finishError .illegal)
  | reset : s.events.head? = some .reset → StepEffect s s.popped.resetInput
  | read (a r d) : s.hostNext a → ((∃ addr, a = .read8 addr) ∨ ∃ addr, a = .read32 addr) →
      StepEffect s { s.popped with replies := s.replies ++ [r], draws := d }
  | writeReg (addr w r) : s.hostNext (.write32 addr w) → addr.toNat = Reg.addr r →
      StepEffect s (s.popped.writeReg r w)
  | writeSrc (addr v k) : s.hostNext (.write8 addr v) → k < 65536 → addr.toNat = 0x10000 + k →
      StepEffect s (s.popped.writeSrc k v)
  | writeFrame (addr v k) : s.hostNext (.write8 addr v) → k < s.params.frameSize →
      addr.toNat = 0x100000 + k → StepEffect s (s.popped.writeFrame k v)

theorem step_effect {s t : State} (h : step s = .next t) : StepEffect s t := by
  rcases step_next_cases h with ⟨hi, ha, hr, rfl⟩ | ⟨hs, i, hl, he⟩ | ⟨hs, hw, rfl⟩ | ⟨hr, rfl⟩ | ⟨a, ha, hb⟩
  · exact .skip hi ha hr
  · rcases exec_next_cases he with ⟨e, rfl⟩ | ⟨fr, g, v, r, w, rfl, h1, h2, h3, h4, h5⟩
    · exact .failed i e hs hl
    · exact .succeeded i fr g v r w hs hl h1 h2 h3 h4 h5
  · exact .illegal hs hw
  · exact .reset hr
  · rcases busAccess_next_cases hb with ⟨hk, r, d, rfl⟩ | ⟨addr, w, r, rfl, h1, rfl⟩ |
      ⟨addr, v, k, rfl, h1, h2, rfl⟩ | ⟨addr, v, k, rfl, h1, h2, rfl⟩
    · exact .read a r d ha hk
    · exact .writeReg addr w r ha h1
    · exact .writeSrc addr v k ha h1 h2
    · exact .writeFrame addr v k ha h1 h2

/-- Everything a step that faults can be. -/
theorem step_fault_cases {s : State} {f : Fault} (h : step s = .fault f) :
    (s.SequencerTurn ∧ ∃ i, s.latched i ∧ exec i s.popped = .fault f) ∨
    (s.SequencerTurn ∧ s.lat.wordOk = true ∧ (∀ i, decode s.lat.word ≠ .ok i) ∧ f = .latchesNoCommand) ∨
    (∃ a, s.hostNext a ∧ (f = .srcByteNoValue ∨ f = .frameByteNoValue)) := by
  have seq : s.SequencerTurn → (s.SequencerTurn ∧ ∃ i, s.latched i ∧ exec i s.popped = .fault f) ∨
      (s.SequencerTurn ∧ s.lat.wordOk = true ∧ (∀ i, decode s.lat.word ≠ .ok i) ∧
        f = .latchesNoCommand) := fun hs => by
    rw [step_sequencer hs] at h
    cases hw : s.lat.wordOk with
    | false => rw [runLatched_illegal (s := s.popped) hw] at h; cases h
    | true =>
      simp only [runLatched, State.popped_lat, hw, if_true] at h
      split at h
      · exact .inl ⟨hs, _, ⟨hw, ‹_›⟩, h⟩
      · cases h; exact .inr ⟨hs, rfl, by simp_all, rfl⟩
  cases hs : s.events with
  | nil =>
    cases hp : s.phase with
    | idle => simp [step, nextStep, hs, sequencerStep, hp] at h
    | busy => exact (seq ⟨hp, .inl hs⟩).imp_right .inl
  | cons e l =>
    have he : s.events.head? = some e := by simp [hs]
    cases e with
    | reset => rw [step_event he] at h; cases h
    | sequencer =>
      cases hp : s.phase with
      | idle => rw [step_event he] at h; simp [act, sequencerStep, hp] at h
      | busy => exact (seq ⟨hp, .inr he⟩).imp_right .inl
    | host a =>
      rw [step_event he] at h
      refine .inr (.inr ⟨a, he, ?_⟩)
      simp only [act] at h
      cases a with
      | read16 addr => obtain ⟨e, he⟩ := refuseAccess_eq s.params addr; simp [busAccess, he] at h
      | write16 addr v => obtain ⟨e, he⟩ := refuseAccess_eq s.params addr; simp [busAccess, he] at h
      | read32 addr =>
        simp only [busAccess] at h
        rcases busAt32_cases addr s.popped (fun r => hostReadReg r s.popped) with ⟨r, _, he⟩ | ⟨_, e, he⟩ <;>
          rw [he] at h <;> cases h
      | write32 addr w =>
        simp only [busAccess] at h
        rcases busAt32_cases addr s.popped (fun r => .next (s.popped.writeReg r w)) with
          ⟨r, _, he⟩ | ⟨_, e, he⟩ <;> rw [he] at h <;> cases h
      | read8 addr =>
        simp only [busAccess] at h
        rcases busAt8_cases addr s.popped (fun a => hostReadSrc a s.popped)
          (fun a => hostReadFrame a s.popped) with ⟨k, _, _, he⟩ | ⟨k, _, _, he⟩ | ⟨_, e, he⟩
        · rw [he] at h; unfold hostReadSrc at h; split at h <;> cases h; exact .inl rfl
        · rw [he] at h; unfold hostReadFrame at h
          split at h
          · cases h
          · split at h <;> cases h; exact .inr rfl
        · rw [he] at h; cases h
      | write8 addr v =>
        simp only [busAccess] at h
        rcases busAt8_cases addr s.popped (fun a => .next (s.popped.writeSrc a v))
          (fun a => .next (s.popped.writeFrame a v)) with
          ⟨k, _, _, he⟩ | ⟨k, _, _, he⟩ | ⟨_, e, he⟩ <;> rw [he] at h <;> cases h

end Sys2Proof.Machine
end

