-- ==== Sys2Proof/Laws/Decode.lean ====
section
/-! SUPPORT. The decoder and the latched word (30_encoding.md R80 to R83, 40_command_sequencer.md R101). -/

namespace Sys2Proof

/-- Bits [2:0] of a joined word are OP, bit [3] is M, bits [31:4] are RES (R80). -/
theorem joinFields_getLsbD (f : CmdFields) (i : Nat) :
    (joinFields f).getLsbD i =
      if i < 3 then f.op.getLsbD i else if i = 3 then f.m else f.res.getLsbD (i - 4) := by
  refine (BitVec.getLsbD_append (x := f.res ++ BitVec.ofBool f.m) (y := f.op) (i := i)).trans ?_
  rw [BitVec.getLsbD_append]
  split
  · rfl
  · split
    · obtain rfl : i = 3 := by omega
      simp
    · rw [if_neg (by omega)]; congr 1

theorem join_splitFields (w : Word) : joinFields (splitFields w) = w := by
  refine BitVec.eq_of_getLsbD_eq fun i hi => ?_
  rw [joinFields_getLsbD]
  simp only [splitFields, BitVec.getLsbD_extractLsb']
  split
  · simp [*]
  · split
    · simp [*]
    · rw [show 4 + (i - 4) = i by omega, decide_eq_true (by omega), Bool.true_and]

theorem split_joinFields (f : CmdFields) : splitFields (joinFields f) = f := by
  obtain ⟨op, m, res⟩ := f
  simp only [splitFields, CmdFields.mk.injEq]
  refine ⟨?_, ?_, ?_⟩
  · refine BitVec.eq_of_getLsbD_eq fun i hi => ?_
    rw [BitVec.getLsbD_extractLsb', joinFields_getLsbD]; simp [hi]
  · rw [joinFields_getLsbD]; simp
  · refine BitVec.eq_of_getLsbD_eq fun i hi => ?_
    rw [BitVec.getLsbD_extractLsb', joinFields_getLsbD, if_neg (by omega), if_neg (by omega)]
    simp [hi]

theorem decode_joinFields (op : BitVec 3) (m : Bool) : decode (joinFields ⟨op, m, 0#28⟩) = decodeOp op m := by
  simp [decode, split_joinFields]

/-- A legal word has reserved bits 0, and its OP and M decode to its command (R83). -/
theorem decode_eq_ok {w : Word} {i : Instr} :
    decode w = .ok i ↔ (splitFields w).res = 0#28 ∧ decodeOp (splitFields w).op (splitFields w).m = .ok i := by
  unfold decode; split <;> simp_all

theorem decodeOp_ok {op : BitVec 3} {m : Bool} {i : Instr} :
    decodeOp op m = .ok i ↔ i.fields = ⟨op, m, 0#28⟩ := by
  revert op; revert m; cases i <;> decide

/-- R83 in one line: a word decodes to `i` exactly when it is the word of `i`. -/
theorem decode_ok_iff {w : Word} {i : Instr} : decode w = .ok i ↔ w = encode i := by
  rw [decode_eq_ok, decodeOp_ok]
  constructor
  · rintro ⟨h1, h2⟩
    rw [encode, h2, ← h1, join_splitFields]
  · rintro rfl
    rw [encode, split_joinFields]
    cases i <;> decide

theorem legalWord_iff {w : Word} : legalWord w = true ↔ ∃ i, decode w = .ok i := by
  unfold legalWord; split <;> simp_all

namespace Machine

/-- The latches of an accepted legal word hold its command (R101, R106). -/
theorem latchesFor_word {s : State} {w : Word} {i : Instr} (h : decode w = .ok i) :
    decode (s.latchesFor w).word = .ok i := by
  rw [Latches.word, decode_joinFields]; exact (decode_eq_ok.1 h).2

theorem accept_latched {s : State} {w : Word} {i : Instr} (h : decode w = .ok i) :
    (s.accept w).latched i := ⟨legalWord_iff.2 ⟨i, h⟩, latchesFor_word h⟩

end Machine
end Sys2Proof
end

