-- ==== Sys2Proof/Laws/PerInstr.lean ====
section
/-! SUPPORT. Facts made for every instruction, one lemma per constructor: the family `CommandWord`, that an
instruction's word has its reserved bits 0 and a command number that is assigned (R80, R81). -/

namespace Sys2Proof.Laws.CommandWord

/-- The instruction is well formed and its word has bits [31:4] = 0 and OP below 6. -/
def Statement (i : Instr) : Prop :=
  i.wf = true ∧ (encode i).extractLsb' 4 28 = 0#28 ∧ ((encode i).extractLsb' 0 3).toNat < 6

theorem nop : Statement .nop := by unfold Statement; decide
theorem plane : Statement .plane := by unfold Statement; decide
theorem planeM : Statement .planeM := by unfold Statement; decide
theorem sprite : Statement .sprite := by unfold Statement; decide
theorem spriteM : Statement .spriteM := by unfold Statement; decide
theorem cells : Statement .cells := by unfold Statement; decide
theorem solid : Statement .solid := by unfold Statement; decide
theorem tile : Statement .tile := by unfold Statement; decide

end Sys2Proof.Laws.CommandWord
end

