-- ==== Sys2Proof/Laws/Regs.lean ====
section
/-! SUPPORT. The registers bit by bit, what a host write leaves alone, and what the sequencer's turn can do. -/

namespace Sys2Proof.Machine

/-- A 32-bit host read returns the register at its address. -/
theorem step_read32 {s : State} {addr : BitVec 24} (h : s.hostNext (.read32 addr)) {r : Reg}
    (hr : addr.toNat = Reg.addr r) :
    step s = .next { s.popped with replies := s.replies ++ [.word (s.readReg r)] } := by
  rw [step_host h]; simp only [busAccess]; rw [busAt32_reg hr]; rfl

/-- A 32-bit host write writes the register at its address. -/
theorem step_write32 {s : State} {addr : BitVec 24} {w : Word} (h : s.hostNext (.write32 addr w))
    {r : Reg} (hr : addr.toNat = Reg.addr r) : step s = .next (s.popped.writeReg r w) := by
  rw [step_host h]; simp only [busAccess]; rw [busAt32_reg hr]

/-- An 8-bit host access reaches the SRC byte or the FRAME byte at its address. -/
theorem step_read8_src {s : State} {addr : BitVec 24} {a : Nat} (h : s.hostNext (.read8 addr))
    (ha : a < 65536) (hr : addr.toNat = 0x10000 + a) : step s = hostReadSrc a s.popped := by
  rw [step_host h]; simp only [busAccess]; rw [busAt8_src ha hr]

theorem step_read8_frame {s : State} {addr : BitVec 24} {a : Nat} (h : s.hostNext (.read8 addr))
    (ha : a < s.params.frameSize) (hr : addr.toNat = 0x100000 + a) :
    step s = hostReadFrame a s.popped := by
  rw [step_host h]; simp only [busAccess]
  rw [busAt8_frame (show a < s.popped.params.frameSize from ha) hr]

theorem step_write8_src {s : State} {addr : BitVec 24} {a : Nat} {v : Byte}
    (h : s.hostNext (.write8 addr v)) (ha : a < 65536) (hr : addr.toNat = 0x10000 + a) :
    step s = .next (s.popped.writeSrc a v) := by
  rw [step_host h]; simp only [busAccess]; rw [busAt8_src ha hr]

theorem step_write8_frame {s : State} {addr : BitVec 24} {a : Nat} {v : Byte}
    (h : s.hostNext (.write8 addr v)) (ha : a < s.params.frameSize) (hr : addr.toNat = 0x100000 + a) :
    step s = .next (s.popped.writeFrame a v) := by
  rw [step_host h]; simp only [busAccess]
  rw [busAt8_frame (show a < s.popped.params.frameSize from ha) hr]

theorem Reg.hostAddr_toNat (r : Reg) : r.hostAddr.toNat = r.addr := by cases r <;> rfl

theorem srcAddr_toNat (a : BitVec 16) : (srcAddr a).toNat = 0x10000 + a.toNat := by
  have := a.isLt; simp only [srcAddr, BitVec.toNat_ofNat]; omega

theorem frameAddr_toNat (a : BitVec 20) : (frameAddr a).toNat = 0x100000 + a.toNat := by
  have := a.isLt; simp only [frameAddr, BitVec.toNat_ofNat]; omega

/-- The host instruction `wr` writes its register (30_encoding.md R86). -/
theorem step_wr {s : State} {r : Reg} {w : Word} {l : List Event}
    (h : s.events = .host (HostInstr.wr r w).access :: l) :
    step s = .next (({ s with events := l } : State).writeReg r w) := by
  rw [step_write32 (r := r) (by simp [State.hostNext, h, HostInstr.access]; rfl) r.hostAddr_toNat]
  simp [State.popped, h]

/-- The host instruction `rd` returns its register (30_encoding.md R86). -/
theorem step_rd {s : State} {r : Reg} {l : List Event}
    (h : s.events = .host (HostInstr.rd r).access :: l) :
    step s = .next { s with events := l, replies := s.replies ++ [.word (s.readReg r)] } := by
  rw [step_read32 (r := r) (by simp [State.hostNext, h, HostInstr.access]) r.hostAddr_toNat]
  simp [State.popped, h]

/-- No register write changes GRID, GV, SPR_INFO, a memory or the parameters. -/
theorem writeReg_frame (r : Reg) (w : Word) (s : State) :
    (s.writeReg r w).gv = s.gv ∧ (s.writeReg r w).grid = s.grid ∧
    (s.writeReg r w).sprInfo = s.sprInfo ∧ (s.writeReg r w).src = s.src ∧
    (s.writeReg r w).frame = s.frame ∧ (s.writeReg r w).params = s.params := by
  cases r <;> simp [State.writeReg]
  cases h : s.phase <;> simp [State.writeCmd, h]

/-- A host write of a SRC byte changes SRC and OVR only. -/
theorem writeSrc_eq (k : Nat) (v : Byte) (s : State) :
    s.writeSrc k v = { s with src := if s.phase = .idle then s.src.write k v else s.src,
                              ovr := if s.phase = .idle then s.ovr else true } := by
  cases h : s.phase <;> simp [State.writeSrc, h]

/-- A host write of a FRAME byte changes FRAME and OVR only. -/
theorem writeFrame_eq (k : Nat) (v : Byte) (s : State) :
    s.writeFrame k v = { s with frame := if s.phase = .idle then s.frame.write k v else s.frame,
                                ovr := if s.phase = .idle then s.ovr else true } := by
  cases h : s.phase <;> simp [State.writeFrame, h]

theorem writeReg_lat (r : Reg) (w : Word) (s : State) (h : r ≠ .cmd) : (s.writeReg r w).lat = s.lat := by
  cases r <;> first | rfl | exact absurd rfl h

/-- STATUS bit by bit (10_state.md R24). -/
theorem statusWord_getLsbD (s : State) (i : Nat) : s.statusWord.getLsbD i =
    if i = 0 then s.busy else if i = 1 then s.done else if i = 2 then s.err else if i = 3 then s.ovr
    else if i < 8 then s.errCode.getLsbD (i - 4) else if i < 12 then s.fmtCause.getLsbD (i - 8)
    else if i = 12 then s.gv else false := by
  refine (BitVec.getLsbD_append (x := 0#19 ++ BitVec.ofBool s.gv ++ s.fmtCause ++ s.errCode ++
    BitVec.ofBool s.ovr ++ BitVec.ofBool s.err ++ BitVec.ofBool s.done)
    (y := BitVec.ofBool s.busy)).trans ?_
  simp only [BitVec.getLsbD_append, BitVec.getLsbD_ofBool, BitVec.getLsbD_zero]
  by_cases h0 : i = 0; · subst h0; simp
  by_cases h1 : i = 1; · subst h1; simp
  by_cases h2 : i = 2; · subst h2; simp
  by_cases h3 : i = 3; · subst h3; simp
  rw [if_neg (by omega), if_neg (by omega), if_neg (by omega), if_neg (by omega)]
  simp only [h0, h1, h2, h3, if_false]
  by_cases h4 : i < 8
  · rw [if_pos (by omega), if_pos h4]; congr 1
  rw [if_neg (by omega), if_neg h4]
  by_cases h5 : i < 12
  · rw [if_pos (by omega), if_pos h5]; congr 1
  rw [if_neg (by omega), if_neg h5]
  by_cases h6 : i = 12
  · subst h6; simp
  · rw [if_neg (by omega), if_neg h6]

/-- PARAM as a number (10_state.md R40). -/
theorem paramWord_toNat (p : Params) :
    (Params.word p).toNat = p.frameAw * 65536 + p.lh * 256 + p.lw := by
  have h1 := p.lw_le; have h2 := p.lh_le; have h3 := p.frameAw_le
  show ((0#8 ++ BitVec.ofNat 8 p.frameAw ++ BitVec.ofNat 8 p.lh ++ BitVec.ofNat 8 p.lw)).toNat = _
  rw [BitVec.toNat_append, BitVec.toNat_append, BitVec.toNat_append]
  simp only [BitVec.toNat_ofNat]
  rw [Nat.mod_eq_of_lt (by omega : p.frameAw < 2^8), Nat.mod_eq_of_lt (by omega : p.lh < 2^8),
    Nat.mod_eq_of_lt (by omega : p.lw < 2^8)]
  rw [← Nat.shiftLeft_add_eq_or_of_lt (by omega), ← Nat.shiftLeft_add_eq_or_of_lt (by omega),
    ← Nat.shiftLeft_add_eq_or_of_lt (by omega)]
  simp only [Nat.shiftLeft_eq]; omega

/-- Two byte fields of a register as a number (10_state.md R36, R37). -/
theorem pair_toNat (a b : BitVec 8) :
    ((a ++ b : BitVec 16).setWidth 32).toNat = a.toNat * 256 + b.toNat := by
  have h1 := a.isLt; have h2 := b.isLt
  rw [BitVec.toNat_setWidth]
  have : (a ++ b : BitVec 16).toNat = a.toNat * 256 + b.toNat := by
    refine (BitVec.toNat_append a b).trans ?_
    rw [← Nat.shiftLeft_add_eq_or_of_lt (by omega)]
    simp only [Nat.shiftLeft_eq]
  rw [this]; omega

/-- The error fields are clear in a BUSY state that meets the invariant (20_memory.md R70). -/
theorem State.Inv.clear {s : State} (hi : s.Inv) (hb : s.phase = .busy) :
    s.err = false ∧ s.errCode = 0#4 ∧ s.fmtCause = 0#4 ∧ s.done = false := by
  obtain ⟨b1, b2⟩ := hi.busyClear hb
  have h3 := hi.errIff
  have h4 : s.fmtCause = 0#4 := by
    by_contra h; have := hi.causeFormat h; rw [b2] at this; cases this
  have h5 : s.err = false := by simp [b2] at h3; exact h3
  exact ⟨h5, b2, h4, b1⟩

/-- Writing 0 to the error fields of such a state changes nothing. -/
theorem State.Inv.clear_eq {s : State} (hi : s.Inv) (hb : s.phase = .busy) :
    { s with err := false, errCode := 0#4, fmtCause := 0#4 } = s := by
  obtain ⟨h1, h2, h3, -⟩ := hi.clear hb
  cases s; simp_all

/-- All the sequencer's turn can do in a state that meets the invariant: complete, with DONE = 1, or fault on a
SRC byte without a value (40_command_sequencer.md R103, R105, 20_memory.md R67). -/
theorem step_turn_cases {s : State} (hi : s.Inv) (hs : s.SequencerTurn) :
    (∃ t, step s = .next t ∧ t.phase = .idle ∧ t.done = true ∧ t.events = s.events.tail ∧
      t.replies = s.replies) ∨ step s = .fault .srcByteNoValue := by
  cases h : step s with
  | next t =>
    refine .inl ⟨t, rfl, ?_⟩
    cases step_effect h with
    | skip hi => rw [hs.1] at hi; cases hi
    | failed => exact ⟨rfl, rfl, rfl, rfl⟩
    | succeeded => exact ⟨rfl, rfl, rfl, rfl⟩
    | illegal => exact ⟨rfl, rfl, rfl, rfl⟩
    | reset hr => exact absurd hr (seq_not_reset hs)
    | read _ _ _ ha => exact absurd ha (seq_not_host hs)
    | writeReg _ _ _ ha => exact absurd ha (seq_not_host hs)
    | writeSrc _ _ _ ha => exact absurd ha (seq_not_host hs)
    | writeFrame _ _ _ ha => exact absurd ha (seq_not_host hs)
  | fault f =>
    rcases step_fault_cases h with ⟨_, i, _, he⟩ | ⟨_, hw, hn, -⟩ | ⟨_, ha, -⟩
    · rcases exec_fault_cases he with rfl | ⟨-, h1, h2⟩
      · exact .inr rfl
      · exact absurd (hi.gridLoaded h1) h2
    · obtain ⟨i, hd⟩ := hi.latLegal hs.1 hw; exact absurd hd (hn i)
    · exact absurd ha (seq_not_host hs)
  | refused r =>
    rw [step_sequencer hs] at h
    unfold runLatched at h
    split at h
    · split at h
      · exact absurd h (exec_not_refused _ _ _)
      · cases h
    · cases h

/-- DST_BASE's field is below FRAME_SIZE (10_state.md R35). -/
theorem dstField_toNat (s : State) : s.dstField.toNat = s.dstBase.toNat % s.params.frameSize := by
  have := s.params.frameSize_le
  have h2 := Nat.mod_lt s.dstBase.toNat s.params.frameSize_pos
  simp only [State.dstField, BitVec.toNat_ofNat]
  rw [Nat.mod_eq_of_lt (by omega)]

/-- FRAME is racing exactly while a latched PLANE or SPRITE is BUSY (70_reset_and_hazards.md R236). -/
theorem frameRacing_iff (s : State) :
    s.frameRacing = true ↔ s.phase = .busy ∧ ∃ i, s.latched i ∧ i.writesFrame := by
  have key : (s.lat.op = 1#3 ∨ s.lat.op = 2#3) ↔
      ∃ i, decode s.lat.word = .ok i ∧ i.writesFrame := by
    simp only [Latches.word, decode_joinFields]
    constructor
    · rintro (h | h) <;> rw [h] <;> rcases s.lat.m with _ | _
      exacts [⟨.plane, rfl, by decide⟩, ⟨.planeM, rfl, by decide⟩, ⟨.sprite, rfl, by decide⟩,
        ⟨.spriteM, rfl, by decide⟩]
    · rintro ⟨i, hi, hw⟩
      rw [decodeOp_ok] at hi
      rw [← show i.fields.op = s.lat.op by rw [hi]]
      rcases hw with rfl | rfl | rfl | rfl <;> decide
  simp only [State.frameRacing, State.busy, Bool.and_eq_true, Bool.or_eq_true, beq_iff_eq, and_assoc,
    key, State.latched]
  constructor
  · rintro ⟨hb, hw, i, hi, hf⟩; exact ⟨hb, i, hw, hi, hf⟩
  · rintro ⟨hb, i, hw, hi, hf⟩; exact ⟨hb, hw, i, hi, hf⟩

end Sys2Proof.Machine
end

