-- ==== Sys2Proof/Tests/Slice0.lean ====
section
/-! SUPPORT. The model's own tests, each expected value taken from the spec (95_test_vectors.md, named T<n>), and a
witness for the hypotheses of every obligation that has some. -/

namespace Sys2Proof.Tests

open Sys2Proof.Machine

/-! ## Well-formedness, encoding, decoding -/

theorem test_wf_refuses_reserved_bits : CmdFields.wf ⟨1#3, false, 1#28⟩ = false := by decide
theorem test_wf_refuses_op_6 : CmdFields.wf ⟨6#3, false, 0#28⟩ = false := by decide
theorem test_wf_refuses_op_7 : CmdFields.wf ⟨7#3, true, 0#28⟩ = false := by decide
theorem test_wf_refuses_masked_nop : CmdFields.wf ⟨0#3, true, 0#28⟩ = false := by decide
theorem test_wf_accepts_masked_sprite : CmdFields.wf ⟨2#3, true, 0#28⟩ = true := by decide

/-! RES, M, OP written out bit by bit (R80 to R83). -/

theorem test_decode_nop : decode 0b00000000000000000000000000000000#32 = .ok .nop := rfl
theorem test_decode_plane : decode 0b00000000000000000000000000000001#32 = .ok .plane := rfl
theorem test_decode_planeM : decode 0b00000000000000000000000000001001#32 = .ok .planeM := rfl
theorem test_decode_sprite : decode 0b00000000000000000000000000000010#32 = .ok .sprite := rfl
theorem test_decode_spriteM : decode 0b00000000000000000000000000001010#32 = .ok .spriteM := rfl
theorem test_decode_cells : decode 0b00000000000000000000000000000011#32 = .ok .cells := rfl
theorem test_decode_solid : decode 0b00000000000000000000000000000100#32 = .ok .solid := rfl
theorem test_decode_tile : decode 0b00000000000000000000000000000101#32 = .ok .tile := rfl
theorem test_decode_op_7 : decode 0b00000000000000000000000000000111#32 = .error .reservedOp := rfl
theorem test_decode_masked_cells : decode 0b00000000000000000000000000001011#32 = .error .maskNotAllowed := rfl
theorem test_decode_top_bit : decode 0b10000000000000000000000000000010#32 = .error .reservedBits := rfl

/-! Program P2's encoding lines (R86, R87). -/

theorem test_line_byte : (HostInstr.wbSrc 0x200#16 0x0F#8).line = "W8 010200 0F".toList := by decide
theorem test_line_geom : (Pseudo.geom 3 16).expand.map HostInstr.line = ["W32 000018 00001003".toList] := by
  decide
theorem test_line_query : (Pseudo.query (-1) 1).expand.map HostInstr.line = ["W32 00001C 000001FF".toList] := by
  decide

/-! ## Small states -/

/-- LW = 4, LH = 3, FRAME_AW = 16, CORNER_OOB_SOLID = 1. -/
def p43 : Params := ⟨3, 2, 0, true⟩

/-- After reset, with `bytes` in SRC from `a` on. -/
def withSrc (a : Nat) (bytes : List Byte) : State :=
  { State.resetOf p43 with src := (List.range bytes.length).map fun k => (a + k, bytes.getD k 0#8) }

/-- `s` with the declared buffer at `b`, `l` bytes long. -/
def buffer (b l : BitVec 16) (s : State) : State := { s with srcBase := b, srcLen := l }

/-- T40: two source bytes, W = `w`, H = `h`, DST_BASE = `d`. -/
def planeState (w h : Byte) (d : BitVec 20) : State :=
  { buffer 0#16 2#16 (withSrc 0 [0x01#8, 0x80#8]) with width := w, height := h, dstBase := d }

/-- `s` right after the host wrote the command of `i` to CMD. -/
def run (i : Instr) (s : State) : State := s.accept (encode i)

/-- The test grid of 95_test_vectors.md section 6.1. -/
def testGrid : List Bool :=
  [true, true, false, false, true, true, true, false, false, false, true, true]

/-- A loaded grid and a query. -/
def queryState (x y : BitVec 8) : State :=
  { State.resetOf p43 with gv := true, grid := testGrid, qx := x, qy := y }

/-- The next state of a step, if any. -/
def next? (o : Host.Outcome State Fault Refusal) : Option State :=
  match o with
  | .next t    => some t
  | .fault _   => none
  | .refused _ => none

/-! ## One step of each command -/

/-- T2: a NOP after an error. -/
theorem test_nop_T2 : (next? (step (run .nop { State.resetOf p43 with
    done := true, err := true, errCode := 1#4, fmtCause := 3#4, sprInfo := 5#32 }))).map
    (fun t => (t.statusWord, t.result, t.sprInfo)) = some (0x00000002#32, 0#32, 5#32) := by decide

/-- T24, T28: UNPACK8. -/
theorem test_unpack8_T24 : (List.range 8).map (unpack8 0x01#8 false) =
    [0xFF#8, 0#8, 0#8, 0#8, 0#8, 0#8, 0#8, 0#8] := by decide
theorem test_unpack8_T28 : (List.range 8).map (unpack8 0xA5#8 true) =
    [0#8, 0xFF#8, 0#8, 0xFF#8, 0xFF#8, 0#8, 0xFF#8, 0#8] := by decide

/-- T40, T41: FRAME[0] and FRAME[15]. -/
theorem test_plane_T40 : (next? (step (run .plane (planeState 2#8 8#8 0#20)))).map
    (fun t => (t.statusWord, t.result, t.frame.read 0, t.frame.read 14, t.frame.read 15, t.frame.read 16)) =
    some (2#32, 16#32, some 0xFF#8, some 0#8, some 0xFF#8, none) := by decide
theorem test_planeM_T41 : (next? (step (run .planeM (planeState 2#8 8#8 0#20)))).map
    (fun t => (t.result, t.frame.read 0, t.frame.read 14, t.frame.read 15)) =
    some (16#32, some 0#8, some 0xFF#8, some 0#8) := by decide

/-- T43: W = 3, H = 16; pixels (2,2) at 8, (2,13) at 41, (0,15) at 45 are white, 40 is black. -/
theorem test_plane_T43 : (next? (step (run .plane { buffer 0#16 6#16
      (withSrc 0 [0x01#8, 0x02#8, 0x04#8, 0x80#8, 0x40#8, 0x20#8]) with width := 3#8, height := 16#8 }))).map
    (fun t => (t.result, t.frame.read 8, t.frame.read 40, t.frame.read 41, t.frame.read 45)) =
    some (48#32, some 0xFF#8, some 0#8, some 0xFF#8, some 0xFF#8) := by decide

/-- T46: W = 8, H = 4 is HEIGHT_NOT_MULT8. -/
theorem test_plane_T46 : (next? (step (run .plane (planeState 8#8 4#8 0#20)))).map State.statusWord =
    some 0x316#32 := by decide

/-- T32: two frames of a SPRITE. -/
theorem test_sprite_T32 : (next? (step (run .sprite (buffer 0#16 4#16
      (withSrc 0 [0x01#8, 0x08#8, 0x0F#8, 0xF0#8]))))).map
    (fun t => (t.statusWord, t.result, t.sprInfo, t.frame.read 3, t.frame.read 4, t.frame.read 11,
      t.frame.read 12)) =
    some (2#32, 2#32, 0x00020801#32, some 0xFF#8, some 0#8, some 0#8, some 0xFF#8) := by decide

/-- T33: SPRITE.M at DST_BASE 0x100. -/
theorem test_spriteM_T33 : (next? (step (run .spriteM { buffer 0#16 4#16
      (withSrc 0 [0x01#8, 0x08#8, 0x0F#8, 0xF0#8]) with dstBase := 0x100#20 }))).map
    (fun t => (t.result, t.frame.read 0xFF, t.frame.read 0x100, t.frame.read 0x104, t.frame.read 0x10C)) =
    some (2#32, none, some 0#8, some 0xFF#8, some 0#8) := by decide

/-- T34: a header alone; T35: less than a header. -/
theorem test_sprite_T34 : (next? (step (run .sprite (buffer 0#16 2#16 (withSrc 0 [0x08#8, 0x08#8]))))).map
    (fun t => (t.statusWord, t.result, t.sprInfo, t.frame)) = some (2#32, 0#32, 0x00000808#32, []) := by decide

/-- T75 (and T70): bits 12 to 15 of the last occupancy byte are not read. -/
theorem test_cells_T75 : (next? (step (run .cells (buffer 0x100#16 2#16
      (withSrc 0x100 [0x73#8, 0xFC#8]))))).map (fun t => (t.statusWord, t.result, t.grid)) =
    some (0x1002#32, 0x102#32, testGrid) := by decide

/-- T76: CELLS on a buffer that is too short clears GV. -/
theorem test_cells_T76 : (next? (step (run .cells (buffer 0x100#16 1#16
      { withSrc 0x100 [0x73#8] with gv := true, grid := testGrid })))).map
    (fun t => (t.statusWord, t.grid)) = some (0x516#32, testGrid) := by decide

/-- T63, T64, T72, T80: the bounds policy, with CORNER_OOB_SOLID = 1. -/
theorem test_solid_T63_T64_T72_T80 :
    ([(0xFF#8, 2#8), (4#8, 0#8), (0#8, 0xFF#8), (3#8, 3#8), (0xFF#8, 0xFF#8), (2#8, 2#8), (3#8, 0#8)].map
      fun q => (next? (step (run .solid (queryState q.1 q.2)))).map State.result) =
    [some 1#32, some 1#32, some 0#32, some 0#32, some 1#32, some 1#32, some 0#32] := by decide

/-- T77: SOLID without a grid. -/
theorem test_solid_T77 : (next? (step (run .solid { State.resetOf p43 with result := 9#32 }))).map
    (fun t => (t.statusWord, t.result)) = some (0x46#32, 9#32) := by decide

/-- T62, T69, T71, T73: TILE at (0,0), (1,0), (2,0), (0,1), (2,1), (2,2), (3,2), (-1,0), (-1,1), (127,0). -/
theorem test_tile_T62_T69_T71_T73 :
    ([(0#8, 0#8), (1#8, 0#8), (2#8, 0#8), (0#8, 1#8), (2#8, 1#8), (2#8, 2#8), (3#8, 2#8), (0xFF#8, 0#8),
      (0xFF#8, 1#8), (127#8, 0#8)].map
      fun q => (next? (step (run .tile (queryState q.1 q.2)))).map fun t => t.result.toNat) =
    [13, 12, 16, 7, 12, 3, 5, 15, 15, 15].map some := by decide

/-- T81: LW = 5, LH = 2: rows are not padded to a byte. -/
theorem test_cells_T81 : (next? (step (run .cells (buffer 0#16 2#16
      { withSrc 0 [0x21#8, 0x00#8] with params := ⟨4, 1, 0, false⟩ })))).map
    (fun t => (t.result, gridCell t.params t.grid 0 0, gridCell t.params t.grid 0 1,
      gridCell t.params t.grid 1 1)) = some (2#32, some true, some true, some false) := by decide

/-! ## Registers, hazards, reset -/

/-- `s` with one host instruction waiting. -/
def host (h : HostInstr) (s : State) : State := { s with events := hostEvents [h] }

/-- T90: PARAM; T92: DST_BASE keeps FRAME_AW bits. -/
theorem test_param_T90 : (next? (step (host (.rd .param) (State.resetOf p43)))).map State.replies =
    some [.word 0x00100304#32] := by decide
theorem test_dstBase_T92 : (next? (step (host (.wr .dstBase 0xFFFFFFFF#32) (State.resetOf p43)))).map
    (fun t => t.readReg .dstBase) = some 0x0000FFFF#32 := by decide

/-- T107: acknowledging clears DONE and leaves the error. -/
theorem test_ack_T107 : (next? (step (host (.wr .status 2#32) { State.resetOf p43 with
    done := true, err := true, errCode := 1#4, fmtCause := 3#4 }))).map State.statusWord =
    some 0x00000314#32 := by decide

/-- T94, T95: refused accesses; T96: an unwritten FRAME byte. -/
theorem test_refused_T94 : step { State.resetOf p43 with events := [.host (.read32 0x2C#24)] } =
    .refused .reservedAddress := rfl
theorem test_refused_T95 : step { State.resetOf p43 with events := [.host (.read8 0x04#24)] } =
    .refused .accessForm := rfl
theorem test_unwritten_T96 : step (host (.rbFrame 0#20) (State.resetOf p43)) = .fault .frameByteNoValue := rfl

/-- T101: a SRC write while a SPRITE is BUSY is dropped. -/
theorem test_drop_T101 : (next? (step (host (.wbSrc 0#16 0x55#8) (run .sprite (withSrc 0 [0x08#8]))))).map
    (fun t => (t.ovr, t.src.read 0)) = some (true, some 0x08#8) := by decide

/-- T105: reset while BUSY. -/
theorem test_reset_T105 : (next? (step { run .plane (planeState 2#8 8#8 0#20) with
    events := [.reset], frame := [(0, 1#8)], result := 7#32 })).map
    (fun t => (t.statusWord, t.result, t.frame)) = some (0#32, 0#32, []) := by decide

/-- P4, steps 8 to 10: the two allowed ends of a NOP written twice without a wait. -/
theorem test_race_P4 : ([[.sequencer, .host (HostInstr.wr .cmd 0#32).access, .sequencer],
      [.host (HostInstr.wr .cmd 0#32).access, .sequencer]].map fun es =>
      (next? (Sys2Proof.core.run es.length { run .nop (State.resetOf p43) with events := es })).map
        State.statusWord) = [some 2#32, some 0xA#32] := by decide

/-! ## Witnesses: one state that meets all hypotheses of each obligation, clause by clause -/

/-- The invariant of a concrete state, checked piece by piece. -/
theorem inv_of (s : State) (h : (s.src.wf && s.src.within srcSize && s.frame.wf &&
      s.frame.within s.params.frameSize && decide (s.dstBase.toNat < s.params.frameSize) &&
      decide (s.lat.dstBase.toNat < s.params.frameSize) && decide (s.err = (s.errCode != 0#4)) &&
      decide (s.errCode.toNat ≤ 5) && decide (s.fmtCause.toNat ≤ 5) &&
      decide (s.fmtCause ≠ 0#4 → s.errCode = 1#4) &&
      decide (s.phase = .busy → s.done = false ∧ s.errCode = 0#4) &&
      decide (s.gv = true → s.grid.length = s.params.lw * s.params.lh)) = true)
    (hl : s.phase = .busy → s.lat.wordOk = true → ∃ i, decode s.lat.word = .ok i) : s.Inv := by
  simp only [Bool.and_eq_true, decide_eq_true_eq, and_assoc] at h
  obtain ⟨h1, h2, h3, h4, h5, h6, h7, h8, h9, h10, h11, h12⟩ := h
  exact ⟨h1, h2, h3, h4, h5, h6, h7, h8, h9, h10, h11, hl, h12⟩

/-- T40's PLANE, T32's SPRITE, T70's CELLS and an illegal word, each BUSY. -/
def busyPlane : State := run .plane (planeState 2#8 8#8 0xFFF0#20)
def busySprite : State := run .sprite (buffer 0#16 4#16 (withSrc 0 [0x01#8, 0x08#8, 0x0F#8, 0xF0#8]))
def busyCells : State := run .cells (buffer 0x100#16 2#16 (withSrc 0x100 [0x73#8, 0x0C#8]))
def busyIllegal : State := (State.resetOf p43).accept 6#32

/-- T34's SPRITE, a header alone, BUSY. -/
def busyEmptySprite : State := run .sprite (buffer 0#16 2#16 (withSrc 0 [8#8, 8#8]))

/-- `s` with the next event `e`. -/
def ev (e : Event) (s : State) : State := { s with events := [e] }

theorem busyPlane_inv : busyPlane.Inv := inv_of _ (by decide) fun _ _ => ⟨.plane, rfl⟩
theorem busySprite_inv : busySprite.Inv := inv_of _ (by decide) fun _ _ => ⟨.sprite, rfl⟩
theorem busyCells_inv : busyCells.Inv := inv_of _ (by decide) fun _ _ => ⟨.cells, rfl⟩
theorem busyEmptySprite_inv : busyEmptySprite.Inv := inv_of _ (by decide) fun _ _ => ⟨.sprite, rfl⟩

theorem witness_StepRunsTheLatchedCommand : busyPlane.SequencerTurn ∧ busyPlane.latched .plane :=
  ⟨⟨rfl, .inl rfl⟩, rfl, rfl⟩

theorem witness_PlacedWordIsRunByTheNextStep : decode 0xA#32 = .ok .spriteM := rfl

theorem witness_CommandWriteThenSequencerTurnRunsIt :
    ∃ s : State, s.phase = .idle ∧ (0#24).toNat = 0x000000 ∧ decode 5#32 = .ok .tile ∧
      s.events = .host (.write32 0#24 5#32) :: .sequencer :: [] :=
  ⟨{ State.resetOf p43 with events := [.host (.write32 0#24 5#32), .sequencer] }, rfl, rfl, rfl, rfl⟩

theorem witness_AcceptLatchesTheWordAndTheOperands :
    ∃ s : State, s.phase = .idle ∧ s.hostNext (.write32 0#24 1#32) ∧ (0#24).toNat = 0x000000 ∧
      s.dstBase.toNat < 2 ^ s.params.frameAw :=
  ⟨host (.wr .cmd 1#32) (planeState 2#8 8#8 0xFFFF#20), rfl, rfl, rfl, by decide⟩

theorem witness_CommandWriteWhileBusyIsDropped :
    (∃ s : State, s.phase = .busy ∧ s.hostNext (.write32 0#24 0#32) ∧ (0#24).toNat = 0x000000) ∧
    (∃ s t : State, s.ovr = true ∧ step s = .next t ∧ s.events.head? ≠ some .reset) :=
  ⟨⟨host (.wr .cmd 0#32) busyPlane, rfl, rfl, rfl⟩, ⟨{ busyPlane with ovr := true }, _, rfl, rfl, by decide⟩⟩

/-- T5, T8: the words next to the legal ones. -/
theorem witness_IllegalWordCompletesWithErrorIllegal :
    ∃ s : State, s.phase = .idle ∧ (0#24).toNat = 0x000000 ∧ 0x00000008#32 ∉ [0x00000000#32, 0x00000001#32,
        0x00000009#32, 0x00000002#32, 0x0000000A#32, 0x00000003#32, 0x00000004#32, 0x00000005#32] ∧
      s.events = .host (.write32 0#24 0x00000008#32) :: .sequencer :: [] :=
  ⟨{ State.resetOf p43 with events := [.host (.write32 0#24 8#32), .sequencer] }, rfl, rfl, by decide, rfl⟩

theorem witness_NopCompletesAndClearsResult : busyPlane.Inv ∧ busyPlane.phase = .busy :=
  ⟨busyPlane_inv, rfl⟩

theorem witness_UnpackedSampleIsWhiteWhereTheBitDiffersFromTheMask : 7 < 8 := by decide

/-- T50, T54: the frame ends at FRAME_SIZE. -/
theorem witness_PlaneWritesTheUnpackedFrame :
    ∃ s : State, s.Inv ∧ s.phase = .busy ∧ s.lat.width.toNat = 2 ∧ s.lat.height.toNat = 8 ∧
      s.lat.srcBase.toNat + s.lat.srcLen.toNat ≤ 65536 ∧ 2 * 8 / 8 ≤ s.lat.srcLen.toNat ∧
      s.lat.dstBase.toNat + 2 * 8 = 2 ^ s.params.frameAw ∧ s.srcWritten s.lat.srcBase.toNat (2 * 8 / 8) :=
  ⟨busyPlane, busyPlane_inv, rfl, by decide, by decide, by decide, by decide, by decide,
    fun k h => by rcases k with _ | _ | k <;> first | rfl | omega⟩

/-- T52, T48, T45, T49 and T51: one state for each clause. -/
theorem witness_PlaneReportsItsFirstFailedCheck :
    (∃ s : State, s.lat.srcBase.toNat + s.lat.srcLen.toNat > 65536) ∧
    (∃ s : State, s.lat.srcBase.toNat + s.lat.srcLen.toNat ≤ 65536 ∧ s.lat.width.toNat = 0) ∧
    (∃ s : State, s.lat.srcBase.toNat + s.lat.srcLen.toNat ≤ 65536 ∧ s.lat.width.toNat ≠ 0 ∧
      s.lat.height.toNat % 8 ≠ 0) ∧
    (∃ s : State, s.lat.srcBase.toNat + s.lat.srcLen.toNat ≤ 65536 ∧ s.lat.width.toNat = 2 ∧
      s.lat.height.toNat = 8 ∧ 2 * 8 / 8 > s.lat.srcLen.toNat) ∧
    (∃ s : State, s.lat.srcBase.toNat + s.lat.srcLen.toNat ≤ 65536 ∧ s.lat.width.toNat = 2 ∧
      s.lat.height.toNat = 8 ∧ 2 * 8 / 8 ≤ s.lat.srcLen.toNat ∧
      s.lat.dstBase.toNat + 2 * 8 = 2 ^ s.params.frameAw + 1) :=
  ⟨⟨run .plane (buffer 0xFFFF#16 2#16 (State.resetOf p43)), by decide⟩,
    ⟨run .plane (planeState 0#8 5#8 0#20), by decide⟩, ⟨run .plane (planeState 8#8 12#8 0#20), by decide⟩,
    ⟨run .plane (buffer 0#16 1#16 (planeState 2#8 8#8 0#20)), by decide⟩,
    ⟨run .plane (planeState 2#8 8#8 0xFFF1#20), by decide⟩⟩

/-- T55: byte 1 of 2 is unwritten. -/
theorem witness_PlaneFaultsOnAnUnwrittenByte :
    ∃ s : State, s.lat.width.toNat = 2 ∧ s.lat.height.toNat = 8 ∧
      s.lat.srcBase.toNat + s.lat.srcLen.toNat ≤ 65536 ∧ 2 * 8 / 8 ≤ s.lat.srcLen.toNat ∧
      s.lat.dstBase.toNat + 2 * 8 ≤ 2 ^ s.params.frameAw ∧ 1 < 2 * 8 / 8 ∧
      s.src.read (s.lat.srcBase.toNat + 1) = none :=
  ⟨run .plane { planeState 2#8 8#8 0#20 with src := [(0, 1#8)] }, by decide⟩

/-- T32: two frames; T34: none. -/
theorem witness_SpriteWritesEveryFrameInStreamOrder :
    (∃ s : State, s.Inv ∧ s.phase = .busy ∧
      s.lat.srcBase.toNat + s.lat.srcLen.toNat ≤ 65536 ∧ 2 ≤ s.lat.srcLen.toNat ∧
      s.src.read s.lat.srcBase.toNat = some 1#8 ∧ s.src.read (s.lat.srcBase.toNat + 1) = some 8#8 ∧
      s.lat.srcLen.toNat - 2 = 2 * (1 * 8 / 8) ∧ s.lat.dstBase.toNat + 2 * 1 * 8 ≤ 2 ^ s.params.frameAw ∧
      s.srcWritten s.lat.srcBase.toNat s.lat.srcLen.toNat) ∧
    (∃ s : State, s.Inv ∧ s.phase = .busy ∧
      s.lat.srcBase.toNat + s.lat.srcLen.toNat ≤ 65536 ∧ 2 ≤ s.lat.srcLen.toNat ∧
      s.src.read s.lat.srcBase.toNat = some 8#8 ∧ s.src.read (s.lat.srcBase.toNat + 1) = some 8#8 ∧
      s.lat.srcLen.toNat - 2 = 0 * (8 * 8 / 8) ∧ s.lat.dstBase.toNat + 0 * 8 * 8 ≤ 2 ^ s.params.frameAw ∧
      s.srcWritten s.lat.srcBase.toNat s.lat.srcLen.toNat) :=
  ⟨⟨busySprite, busySprite_inv, rfl, by decide, by decide, by decide, by decide, by decide, by decide, fun k h => by
      have h : k < 4 := h
      rcases k with _ | _ | _ | _ | k <;> first | rfl | omega⟩,
    ⟨busyEmptySprite, busyEmptySprite_inv, rfl, by decide, by decide, by decide, by decide,
      by decide, by decide, fun k h => by
      have h : k < 2 := h
      rcases k with _ | _ | k <;> first | rfl | omega⟩⟩

/-- T67, T35, T37, T39, T58 and T60: one state for each clause. -/
theorem witness_SpriteReportsItsFirstFailedCheck :
    (∃ s : State, s.lat.srcBase.toNat + s.lat.srcLen.toNat > 65536) ∧
    (∃ s : State, s.lat.srcBase.toNat + s.lat.srcLen.toNat ≤ 65536 ∧ s.lat.srcLen.toNat < 2) ∧
    (∃ s : State, s.lat.srcBase.toNat + s.lat.srcLen.toNat ≤ 65536 ∧ 2 ≤ s.lat.srcLen.toNat ∧
      s.src.read s.lat.srcBase.toNat = some 0#8 ∧ s.src.read (s.lat.srcBase.toNat + 1) = some 8#8) ∧
    (∃ s : State, s.lat.srcBase.toNat + s.lat.srcLen.toNat ≤ 65536 ∧ 2 ≤ s.lat.srcLen.toNat ∧
      s.src.read s.lat.srcBase.toNat = some 8#8 ∧ s.src.read (s.lat.srcBase.toNat + 1) = some 1#8) ∧
    (∃ s : State, s.lat.srcBase.toNat + s.lat.srcLen.toNat ≤ 65536 ∧ 2 ≤ s.lat.srcLen.toNat ∧
      s.src.read s.lat.srcBase.toNat = some 8#8 ∧ s.src.read (s.lat.srcBase.toNat + 1) = some 8#8 ∧
      (s.lat.srcLen.toNat - 2) % (8 * 8 / 8) ≠ 0) ∧
    (∃ s : State, s.lat.srcBase.toNat + s.lat.srcLen.toNat ≤ 65536 ∧ 2 ≤ s.lat.srcLen.toNat ∧
      s.src.read s.lat.srcBase.toNat = some 8#8 ∧ s.src.read (s.lat.srcBase.toNat + 1) = some 8#8 ∧
      (s.lat.srcLen.toNat - 2) % (8 * 8 / 8) = 0 ∧
      s.lat.dstBase.toNat + (s.lat.srcLen.toNat - 2) / (8 * 8 / 8) * 8 * 8 = 2 ^ s.params.frameAw + 1) :=
  ⟨⟨run .sprite (buffer 0xFFFF#16 2#16 (State.resetOf p43)), by decide⟩,
    ⟨run .sprite (buffer 0#16 1#16 (State.resetOf p43)), by decide⟩,
    ⟨run .sprite (buffer 0#16 2#16 (withSrc 0 [0#8, 8#8])), by decide⟩,
    ⟨run .sprite (buffer 0#16 3#16 (withSrc 0 [8#8, 1#8])), by decide⟩,
    ⟨run .sprite (buffer 0#16 11#16 (withSrc 0 [8#8, 8#8])), by decide⟩,
    ⟨run .sprite { buffer 0#16 18#16 (withSrc 0 [8#8, 8#8]) with dstBase := 0xFF81#20 }, by decide⟩⟩

/-- T68: the second header byte is unwritten; and a frame byte is. -/
theorem witness_SpriteFaultsOnAnUnwrittenByte :
    (∃ s : State, s.lat.srcBase.toNat + s.lat.srcLen.toNat ≤ 65536 ∧ 2 ≤ s.lat.srcLen.toNat ∧
      s.src.read (s.lat.srcBase.toNat + 1) = none) ∧
    (∃ s : State, s.lat.srcBase.toNat + s.lat.srcLen.toNat ≤ 65536 ∧ 2 ≤ s.lat.srcLen.toNat ∧
      s.src.read s.lat.srcBase.toNat = some 8#8 ∧ s.src.read (s.lat.srcBase.toNat + 1) = some 8#8 ∧
      s.lat.srcLen.toNat - 2 = 1 * (8 * 8 / 8) ∧ s.lat.dstBase.toNat + 1 * 8 * 8 ≤ 2 ^ s.params.frameAw ∧
      7 < 1 * (8 * 8 / 8) ∧ s.src.read (s.lat.srcBase.toNat + 2 + 7) = none) :=
  ⟨⟨run .sprite (buffer 0#16 10#16 (withSrc 0 [8#8])), by decide⟩,
    ⟨run .sprite (buffer 0#16 10#16 (withSrc 0 [8#8, 8#8])), by decide⟩⟩

theorem witness_CellsLoadsEveryCellOfTheGrid :
    ∃ s : State, s.Inv ∧ s.phase = .busy ∧ 2 = (s.params.lw * s.params.lh + 7) / 8 ∧
      s.lat.srcBase.toNat + s.lat.srcLen.toNat ≤ 65536 ∧ 2 ≤ s.lat.srcLen.toNat ∧ s.srcWritten s.lat.srcBase.toNat 2 :=
  ⟨busyCells, busyCells_inv, rfl, by decide, by decide, by decide, fun k h => by rcases k with _ | _ | k <;> first | rfl | omega⟩

/-- T79, T76, and a region whose second byte is unwritten. -/
theorem witness_CellsReportsItsFirstFailedCheckOrFaults :
    (∃ s : State, s.lat.srcBase.toNat + s.lat.srcLen.toNat > 65536) ∧
    (∃ s : State, s.lat.srcBase.toNat + s.lat.srcLen.toNat ≤ 65536 ∧
      s.lat.srcLen.toNat < (s.params.lw * s.params.lh + 7) / 8) ∧
    (∃ s : State, s.lat.srcBase.toNat + s.lat.srcLen.toNat ≤ 65536 ∧
      (s.params.lw * s.params.lh + 7) / 8 ≤ s.lat.srcLen.toNat ∧
      1 < (s.params.lw * s.params.lh + 7) / 8 ∧ s.src.read (s.lat.srcBase.toNat + 1) = none) :=
  ⟨⟨run .cells (buffer 0xFFFF#16 2#16 (State.resetOf p43)), by decide⟩,
    ⟨run .cells (buffer 0x100#16 1#16 (State.resetOf p43)), by decide⟩,
    ⟨run .cells (buffer 0x100#16 2#16 (withSrc 0x100 [0x73#8])), by decide⟩⟩

/-- A loaded grid with a query at each edge: outside in both, in x, in y, and at the last cell; and no grid. -/
theorem witness_SolidAnswersByTheBoundsPolicy :
    (∃ s : State, s.Inv ∧ s.phase = .busy ∧ s.gv = false) ∧
    (∃ s : State, s.Inv ∧ s.phase = .busy ∧ s.gv = true ∧ s.lat.qx.toInt < 0 ∧
      s.lat.qy.toInt ≥ s.params.lh) ∧
    (∃ s : State, s.Inv ∧ s.phase = .busy ∧ s.gv = true ∧ s.lat.qx.toInt = s.params.lw ∧
      0 ≤ s.lat.qy.toInt ∧ s.lat.qy.toInt < s.params.lh) ∧
    (∃ s : State, s.Inv ∧ s.phase = .busy ∧ s.gv = true ∧ 0 ≤ s.lat.qx.toInt ∧
      s.lat.qx.toInt < s.params.lw ∧ s.lat.qy.toInt = -1) ∧
    (∃ s : State, s.Inv ∧ s.phase = .busy ∧ s.gv = true ∧
      s.lat.qx.toInt = s.params.lw - 1 ∧ s.lat.qy.toInt = s.params.lh - 1) :=
  ⟨⟨run .solid (State.resetOf p43), inv_of _ (by decide) fun _ _ => ⟨.solid, rfl⟩, rfl, rfl⟩,
    ⟨run .solid (queryState 0xFF#8 3#8), inv_of _ (by decide) fun _ _ => ⟨.solid, rfl⟩, by decide⟩,
    ⟨run .solid (queryState 4#8 0#8), inv_of _ (by decide) fun _ _ => ⟨.solid, rfl⟩, by decide⟩,
    ⟨run .solid (queryState 0#8 0xFF#8), inv_of _ (by decide) fun _ _ => ⟨.solid, rfl⟩, by decide⟩,
    ⟨run .solid (queryState 3#8 2#8), inv_of _ (by decide) fun _ _ => ⟨.solid, rfl⟩, by decide⟩⟩

theorem witness_TileAnswersTheNeighbourIndex :
    (∃ s : State, s.Inv ∧ s.phase = .busy ∧ s.gv = false) ∧
    (∃ s : State, s.Inv ∧ s.phase = .busy ∧ s.gv = true ∧ s.lat.qx.toInt = 127) :=
  ⟨⟨run .tile (State.resetOf p43), inv_of _ (by decide) fun _ _ => ⟨.tile, rfl⟩, rfl, rfl⟩,
    ⟨run .tile (queryState 127#8 0#8), inv_of _ (by decide) fun _ _ => ⟨.tile, rfl⟩, by decide⟩⟩

theorem witness_MapEdgesAreSolidSidewaysAndOpenUpAndDown :
    ((0 : Int) ≤ 2 ∧ (2 : Int) < p43.lh) ∧ ((0 : Int) ≤ 3 ∧ (3 : Int) < p43.lw) ∧
      solidAt p43 testGrid 2 0 = some false := by decide

theorem witness_TileIndexBitsAreTheNeighbours :
    (tileIndexAt p43 testGrid 0 0 = some 13 ∧ solidAt p43 testGrid 0 0 = some true) ∧
      tileIndexAt p43 testGrid 2 0 = some 16 := by decide

/-- T66: the two grids differ in cell (3, 0) only. -/
theorem witness_TileIndexDependsOnlyOnTheNeighbourhood :
    ∃ g : List Bool, g ≠ testGrid ∧ ∀ u v : Int, 0 ≤ u → u < p43.lw → 0 ≤ v → v < p43.lh →
      (u = 1 ∧ v = 1 ∨ (u = 1 + 1 ∨ u = 1 - 1) ∧ v = 1 ∨ u = 1 ∧ (v = 1 + 1 ∨ v = 1 - 1)) →
      testGrid[v.toNat * p43.lw + u.toNat]? = g[v.toNat * p43.lw + u.toNat]? :=
  ⟨testGrid.set 3 true, by decide, by
    rintro u v - - - - (⟨rfl, rfl⟩ | ⟨rfl | rfl, rfl⟩ | ⟨rfl, rfl | rfl⟩) <;> decide⟩

/-- A CELLS that is too short, and an illegal word. -/
theorem witness_ErrorCompletionChangesOnlyStatus :
    (∃ s t : State, s.SequencerTurn ∧ s.errCode = 0#4 ∧ step s = .next t ∧ t.errCode ≠ 0#4 ∧
      s.latched .cells) ∧
    (∃ s t : State, s.SequencerTurn ∧ s.errCode = 0#4 ∧ step s = .next t ∧ t.errCode ≠ 0#4 ∧
      ¬s.latched .cells) :=
  ⟨⟨run .cells (State.resetOf p43), _, ⟨rfl, .inl rfl⟩, rfl, rfl, by decide, rfl, rfl⟩,
    ⟨busyIllegal, _, ⟨rfl, .inl rfl⟩, rfl, rfl, by decide, fun h => absurd h.1 (by decide)⟩⟩

theorem witness_CompletionKeepsTheHostsRegisters :
    ∃ t, busyPlane.Inv ∧ busyPlane.SequencerTurn ∧ step busyPlane = .next t :=
  ⟨_, busyPlane_inv, ⟨rfl, .inl rfl⟩, rfl⟩

/-- A completion, a reset, an accept, an acknowledgement, and a step that is none of them. -/
theorem witness_DoneIsSetByCompletionAndClearedThreeWays :
    (∃ t, step busyPlane = .next t ∧ busyPlane.SequencerTurn) ∧
    (∃ s t : State, step s = .next t ∧ s.events.head? = some .reset) ∧
    (∃ s t : State, step s = .next t ∧ s.hostNext (.write32 0#24 1#32) ∧ s.phase = .idle) ∧
    (∃ s t : State, step s = .next t ∧ s.hostNext (.write32 4#24 2#32) ∧ (2#32).getLsbD 1 = true) ∧
    (∃ s t : State, step s = .next t ∧ ¬s.SequencerTurn ∧ s.events.head? ≠ some .reset ∧
      ∀ addr w, s.hostNext (.write32 addr w) →
        ¬(addr.toNat = 0x000000 ∧ s.phase = .idle) ∧ ¬(addr.toNat = 0x000004 ∧ w.getLsbD 1 = true)) :=
  ⟨⟨_, rfl, rfl, .inl rfl⟩, ⟨ev .reset busyPlane, _, rfl, rfl⟩,
    ⟨host (.wr .cmd 1#32) (State.resetOf p43), _, rfl, rfl, rfl⟩,
    ⟨host (.wr .status 2#32) (State.resetOf p43), _, rfl, rfl, rfl⟩,
    ⟨host (.rd .status) busyPlane, _, rfl, fun h => seq_not_host (a := .read32 4#24) h rfl,
      by decide, fun addr w h => nomatch (hostNext_inj h (b := .read32 4#24) rfl)⟩⟩

/-- A reset, a CMD write and a FRAME write while BUSY, and a step that drops nothing. -/
theorem witness_OverrunIsStickyUntilReset :
    (∃ s t : State, step s = .next t ∧ s.events.head? = some .reset) ∧
    (∃ s t : State, step s = .next t ∧ s.phase = .busy ∧ s.hostNext (.write32 0#24 0#32)) ∧
    (∃ s t : State, step s = .next t ∧ s.phase = .busy ∧ s.hostNext (.write8 0x100000#24 7#8)) ∧
    (∃ s t : State, step s = .next t ∧ s.events.head? ≠ some .reset ∧ s.phase = .idle) :=
  ⟨⟨ev .reset busyPlane, _, rfl, rfl⟩, ⟨host (.wr .cmd 0#32) busyPlane, _, rfl, rfl, rfl⟩,
    ⟨host (.wbFrame 0#20 7#8) busyPlane, _, rfl, rfl, rfl⟩,
    ⟨host (.wr .cmd 0#32) (State.resetOf p43), _, rfl, by decide, rfl⟩⟩

theorem witness_GridValidFollowsTheLastCells :
    (∃ t, busyCells.SequencerTurn ∧ busyCells.errCode = 0#4 ∧ step busyCells = .next t ∧
      busyCells.latched .cells ∧ t.gv = true) ∧
    (∃ t, busyPlane.SequencerTurn ∧ busyPlane.errCode = 0#4 ∧ step busyPlane = .next t ∧
      ¬busyPlane.latched .cells) ∧
    (∃ s t : State, s.hostNext (.read32 4#24) ∧ step s = .next t) ∧
    (∃ s t : State, s.events.head? = some .reset ∧ step s = .next t) ∧ (State.resetOf p43).gv = false :=
  ⟨⟨_, ⟨rfl, .inl rfl⟩, rfl, rfl, ⟨rfl, rfl⟩, rfl⟩,
    ⟨_, ⟨rfl, .inl rfl⟩, rfl, rfl, fun h => by have := h.2; cases this⟩,
    ⟨host (.rd .status) busyPlane, _, rfl, rfl⟩, ⟨ev .reset busyPlane, _, rfl, rfl⟩, rfl⟩

theorem witness_OnlyASuccessfulSpriteWritesSprInfo :
    (∃ t, busySprite.Inv ∧ step busySprite = .next t ∧ t.sprInfo ≠ busySprite.sprInfo) :=
  ⟨_, busySprite_inv, rfl, by decide⟩

theorem witness_ErrorFieldsStayUntilTheNextAccept :
    ∃ s t : State, step s = .next t ∧ ¬s.SequencerTurn ∧ s.events.head? ≠ some .reset ∧ s.err = true ∧
      ∀ addr w, s.hostNext (.write32 addr w) → ¬(addr.toNat = 0x000000 ∧ s.phase = .idle) :=
  ⟨host (.rd .status) { State.resetOf p43 with err := true, errCode := 2#4 }, _, rfl,
    fun h => seq_not_host (a := .read32 4#24) h rfl, by decide, rfl,
    fun addr w h => nomatch (hostNext_inj h (b := .read32 4#24) rfl)⟩

theorem witness_EverySampleWrittenIsBlackOrWhite :
    ∃ t, busySprite.SequencerTurn ∧ step busySprite = .next t ∧ t.frame.read 0 ≠ busySprite.frame.read 0 :=
  ⟨_, ⟨rfl, .inl rfl⟩, rfl, by decide⟩

/-- A host write of each memory, a PLANE and a CELLS. -/
theorem witness_EachMemoryHasItsOwnWriters :
    (∃ s t : State, step s = .next t ∧ s.events.head? ≠ some .reset ∧ t.src.read 3 ≠ s.src.read 3) ∧
    (∃ s t : State, step s = .next t ∧ s.events.head? ≠ some .reset ∧ t.frame.read 5 ≠ s.frame.read 5) ∧
    (∃ t, step busyPlane = .next t ∧ busyPlane.events.head? ≠ some .reset ∧
      t.frame.read 0xFFFF ≠ busyPlane.frame.read 0xFFFF) ∧
    (∃ t, step busyCells = .next t ∧ busyCells.events.head? ≠ some .reset ∧ t.grid ≠ busyCells.grid) :=
  ⟨⟨host (.wbSrc 3#16 9#8) (State.resetOf p43), _, rfl, by decide, by decide⟩,
    ⟨host (.wbFrame 5#20 9#8) (State.resetOf p43), _, rfl, by decide, by decide⟩,
    ⟨_, rfl, by decide, by decide⟩, ⟨_, rfl, by decide, by decide⟩⟩

/-- A command that completes, and one that faults. -/
theorem witness_CommandsReadTheirOperandsFromTheLatchesOnly :
    (∃ t, exec .plane busyPlane = .next t) ∧ exec .plane { busyPlane with src := [] } = .fault .srcByteNoValue :=
  ⟨⟨_, rfl⟩, rfl⟩

theorem witness_LatchesChangeOnlyAtAccept :
    ∃ s t : State, step s = .next t ∧ s.events.head? ≠ some .reset ∧ t.lat ≠ s.lat :=
  ⟨host (.wr .cmd 1#32) (State.resetOf p43), _, rfl, by decide, by decide⟩

theorem witness_StatusReadShowsItsFields :
    (host (.rd .status) busyPlane).hostNext (.read32 4#24) ∧
      (host (.wr .status 2#32) busyPlane).hostNext (.write32 4#24 2#32) ∧ (4#24).toNat = 0x000004 :=
  ⟨rfl, rfl, rfl⟩

/-- The first and the last register. -/
theorem witness_RegisterReadsReturnTheirFields :
    ((host (.rd .cmd) busyPlane).hostNext (.read32 0#24) ∧ (0#24).toNat < 0x2C ∧ (0#24).toNat % 4 = 0) ∧
    ((host (.rd .param) busyPlane).hostNext (.read32 0x28#24) ∧ (0x28#24).toNat < 0x2C ∧
      (0x28#24).toNat % 4 = 0) := ⟨⟨rfl, by decide⟩, rfl, by decide⟩

theorem witness_RegisterWritesTakeEffectAtOnce :
    (∃ s : State, s.hostNext (.write32 4#24 2#32)) ∧ (∃ s : State, s.hostNext (.write32 8#24 1#32)) ∧
    (∃ s : State, s.hostNext (.write32 0xC#24 1#32)) ∧ (∃ s : State, s.hostNext (.write32 0x10#24 1#32)) ∧
    (∃ s : State, s.hostNext (.write32 0x14#24 1#32)) ∧ (∃ s : State, s.hostNext (.write32 0x18#24 1#32)) ∧
    (∃ s : State, s.hostNext (.write32 0x1C#24 1#32)) ∧ (∃ s : State, s.hostNext (.write32 0x28#24 1#32)) :=
  ⟨⟨host (.wr .status 2#32) busyPlane, rfl⟩, ⟨host (.wr .ctrl 1#32) busyPlane, rfl⟩,
    ⟨host (.wr .srcLen 1#32) busyPlane, rfl⟩, ⟨host (.wr .srcBase 1#32) busyPlane, rfl⟩,
    ⟨host (.wr .dstBase 1#32) busyPlane, rfl⟩, ⟨host (.wr .geom 1#32) busyPlane, rfl⟩,
    ⟨host (.wr .query 1#32) busyPlane, rfl⟩, ⟨host (.wr .param 1#32) busyPlane, rfl⟩⟩

theorem witness_ParamIsConstant :
    (∃ t, step busyPlane = .next t) ∧ (host (.wr .param 1#32) busyPlane).hostNext (.write32 0x28#24 1#32) :=
  ⟨⟨_, rfl⟩, rfl⟩

/-- A completion, a reset and a CTRL write that enables a pending interrupt. -/
theorem witness_InterruptRisesOnlyByCompletionOrEnable :
    (∃ s t : State, step s = .next t ∧ s.SequencerTurn ∧ s.irqEn = true) ∧
    (∃ s t : State, step s = .next t ∧ s.events.head? = some .reset) ∧
    (∃ s t : State, step s = .next t ∧ s.irq = false ∧ t.irq = true) :=
  ⟨⟨{ busyPlane with irqEn := true }, _, rfl, ⟨rfl, .inl rfl⟩, rfl⟩, ⟨ev .reset busyPlane, _, rfl, rfl⟩,
    ⟨host (.wr .ctrl 1#32) { State.resetOf p43 with done := true }, _, rfl, rfl, rfl⟩⟩

theorem witness_HostClearsTheInterruptThreeWays :
    (∃ s t : State, step s = .next t ∧ s.hostNext (.write32 4#24 2#32) ∧ (2#32).getLsbD 1 = true) ∧
    (∃ s t : State, step s = .next t ∧ s.hostNext (.write32 8#24 0#32) ∧ (0#32).getLsbD 0 = false) ∧
    (∃ s t : State, step s = .next t ∧ s.hostNext (.write32 0#24 0#32) ∧ s.phase = .idle) ∧
    (∃ s t : State, step s = .next t ∧ s.hostNext (.read32 4#24)) :=
  ⟨⟨host (.wr .status 2#32) (State.resetOf p43), _, rfl, rfl, rfl⟩,
    ⟨host (.wr .ctrl 0#32) (State.resetOf p43), _, rfl, rfl, rfl⟩,
    ⟨host (.wr .cmd 0#32) (State.resetOf p43), _, rfl, rfl, rfl⟩,
    ⟨host (.rd .status) (State.resetOf p43), _, rfl, rfl⟩⟩

theorem witness_ReadsChangeNothing :
    (∃ s t : State, s.hostNext (.read8 0x100000#24) ∧ step s = .next t) ∧
    (∃ s t : State, s.hostNext (.read32 4#24) ∧ step s = .next t) :=
  ⟨⟨host (.rbFrame 0#20) busyPlane, _, rfl, rfl⟩, ⟨host (.rd .status) busyPlane, _, rfl, rfl⟩⟩

/-- The last byte of SRC and of FRAME. -/
theorem witness_MemoryWritesWhileBusyAreDropped :
    (∃ s : State, s.phase = .busy ∧ s.hostNext (.write8 0x01FFFF#24 1#8) ∧
      65535 < 65536 ∧ (0x01FFFF#24).toNat = 0x010000 + 65535) ∧
    (∃ s : State, s.phase = .busy ∧ s.hostNext (.write8 0x10FFFF#24 1#8) ∧
      65535 < 2 ^ s.params.frameAw ∧ (0x10FFFF#24).toNat = 0x100000 + 65535) ∧
    (∃ s : State, s.phase = .busy ∧ s.hostNext (.write32 0#24 1#32)) ∧
    (∃ (s t : State) (a : HostAccess), s.phase = .busy ∧ s.hostNext a ∧ step s = .next t) :=
  ⟨⟨ev (.host (.write8 0x01FFFF#24 1#8)) busyPlane, rfl, rfl, by decide, by decide⟩,
    ⟨ev (.host (.write8 0x10FFFF#24 1#8)) busyPlane, rfl, rfl, by decide, by decide⟩,
    ⟨host (.wr .cmd 1#32) busyPlane, rfl, rfl⟩, ⟨host (.wr .geom 1#32) busyPlane, _, _, rfl, rfl, rfl⟩⟩

/-- A racing read, a FRAME read beside a CELLS, and a SRC read. -/
theorem witness_FrameReadsRaceOnlyWithPlaneAndSprite :
    (∃ s : State, s.hostNext (.read8 0x10FFFF#24) ∧ 65535 < 2 ^ s.params.frameAw ∧ s.phase = .busy ∧
      ∃ i, s.latched i ∧ i.writesFrame) ∧
    (∃ s : State, s.hostNext (.read8 0x100000#24) ∧ 0 < 2 ^ s.params.frameAw ∧ s.frame.read 0 = some 9#8 ∧
      ¬(s.phase = .busy ∧ ∃ i, s.latched i ∧ i.writesFrame)) ∧
    (∃ s : State, s.hostNext (.read8 0x010000#24) ∧ s.src.read 0 = some 1#8) :=
  ⟨⟨ev (.host (.read8 0x10FFFF#24)) busyPlane, rfl, by decide, rfl, .plane, ⟨rfl, rfl⟩, .inl rfl⟩,
    ⟨ev (.host (.read8 0x100000#24)) { busyCells with frame := [(0, 9#8)] }, rfl, by decide, rfl, by
      rintro ⟨-, i, h, hw⟩
      have := latched_inj h (show State.latched _ .cells from ⟨rfl, rfl⟩)
      subst this; revert hw; decide⟩,
    ⟨ev (.host (.read8 0x010000#24)) busyPlane, rfl, rfl⟩⟩

theorem witness_ReadingAnUnwrittenByteFaults :
    (∃ s : State, s.hostNext (.read8 0x01FFFF#24) ∧ s.src.read 65535 = none) ∧
    (∃ s : State, s.hostNext (.read8 0x10FFFF#24) ∧ 65535 < 2 ^ s.params.frameAw ∧
      s.frame.read 65535 = none ∧ ¬(s.phase = .busy ∧ ∃ i, s.latched i ∧ i.writesFrame)) :=
  ⟨⟨ev (.host (.read8 0x01FFFF#24)) busyPlane, rfl, rfl⟩,
    ⟨ev (.host (.read8 0x10FFFF#24)) (State.resetOf p43), rfl, by decide, rfl, fun h => nomatch h.1⟩⟩

theorem witness_HostByteWriteReadsBack :
    (∃ s : State, s.phase = .idle ∧ (0x01FFFF#24).toNat = 0x010000 + 65535 ∧
      s.events = .host (.write8 0x01FFFF#24 1#8) :: .host (.read8 0x01FFFF#24) :: []) ∧
    (∃ s : State, s.phase = .idle ∧ 65535 < 2 ^ s.params.frameAw ∧ (0x10FFFF#24).toNat = 0x100000 + 65535 ∧
      s.events = .host (.write8 0x10FFFF#24 1#8) :: .host (.read8 0x10FFFF#24) :: []) :=
  ⟨⟨{ State.resetOf p43 with events := [.host (.write8 0x01FFFF#24 1#8), .host (.read8 0x01FFFF#24)] }, rfl,
      by decide, rfl⟩,
    ⟨{ State.resetOf p43 with events := [.host (.write8 0x10FFFF#24 1#8), .host (.read8 0x10FFFF#24)] }, rfl,
      by decide, by decide, rfl⟩⟩

/-- An access of each width, just inside and just outside. -/
theorem witness_AccessesAreRefusedExactlyOutsideTheMap :
    (∃ s : State, s.hostNext (.read16 0x010000#24)) ∧
    (∃ s : State, s.hostNext (.read32 0x28#24)) ∧ (∃ s : State, s.hostNext (.write32 0x2C#24 0#32)) ∧
    (∃ s : State, s.hostNext (.read8 0x10FFFF#24)) ∧ (∃ s : State, s.hostNext (.write8 0x110000#24 0#8)) :=
  ⟨⟨ev (.host (.read16 0x010000#24)) busyPlane, rfl⟩, ⟨ev (.host (.read32 0x28#24)) busyPlane, rfl⟩,
    ⟨ev (.host (.write32 0x2C#24 0#32)) busyPlane, rfl⟩, ⟨ev (.host (.read8 0x10FFFF#24)) busyPlane, rfl⟩,
    ⟨ev (.host (.write8 0x110000#24 0#8)) busyPlane, rfl⟩⟩

/-- A state before each pseudo-instruction, its operands at the ends of their ranges. -/
theorem witness_PseudoInstructionsLeaveTheirOperands (p : Pseudo) :
    (∃ s : State, s.events = hostEvents p.expand ++ [] ∧ s.phase = .idle) ∧
    (Pseudo.geom 255 255 = .geom 255 255 ∧ 255 ≤ 255) ∧ ((-128 : Int) ≤ -128 ∧ (127 : Int) ≤ 127) ∧
    65535 ≤ 65535 ∧ 65535 + [1#8].length ≤ 65536 :=
  ⟨⟨{ State.resetOf p43 with events := hostEvents p.expand ++ [] }, rfl, rfl⟩, by decide⟩

/-- The same obligation's `wait`: one that completes after two polls, one that faults, and one while IDLE. -/
theorem witness_PseudoInstructionsLeaveTheirOperands_wait :
    (∃ s t : State, s.Inv ∧ s.phase = .busy ∧ s.events = waitEvents 2 ++ [] ∧
      Sys2Proof.core.run 4 s = .next t) ∧
    (∃ s : State, s.Inv ∧ s.phase = .busy ∧ s.events = waitEvents 0 ++ [] ∧
      Sys2Proof.core.run 2 s = .fault Fault.srcByteNoValue) ∧
    (∃ s : State, s.phase = .idle ∧ s.events = waitEvents 0 ++ []) :=
  ⟨⟨{ busyPlane with events := waitEvents 2 }, _, inv_of _ (by decide) fun _ _ => ⟨.plane, rfl⟩, rfl, rfl, rfl⟩,
    ⟨{ busyPlane with events := waitEvents 0, src := [] }, inv_of _ (by decide) fun _ _ => ⟨.plane, rfl⟩, rfl,
      rfl, rfl⟩,
    ⟨{ State.resetOf p43 with events := waitEvents 0 }, rfl, rfl⟩⟩

theorem witness_ResetLeavesTheTableOfResetValues :
    (∃ s : State, s = State.resetOf p43) ∧ Reg.status ≠ .param := ⟨⟨_, rfl⟩, by decide⟩

theorem witness_ResetInputPutsEveryPieceAtItsResetValue :
    (ev .reset busyPlane).events.head? = some .reset := rfl

/-- Latches other than the model's zeros, DST_BASE's at the top of its range. -/
theorem witness_ResetMeetsTheInvariant :
    ∃ l : Latches, l ≠ Latches.reset ∧ l.dstBase.toNat = 2 ^ p43.frameAw - 1 :=
  ⟨{ Latches.reset with wordOk := true, m := true, dstBase := 0xFFFF#20 }, by decide, by decide⟩

/-- A sequencer step, and a reset. -/
theorem witness_EveryStepKeepsTheInvariant :
    (∃ t, busyPlane.Inv ∧ step busyPlane = .next t) ∧
    (∃ s t : State, s.Inv ∧ s.events.head? = some .reset ∧ step s = .next t) :=
  ⟨⟨_, busyPlane_inv, rfl⟩,
    ⟨ev .reset busyPlane, _, inv_of _ (by decide) fun _ _ => ⟨.plane, rfl⟩, rfl, rfl⟩⟩

theorem witness_OnlyUnwrittenBytesFault :
    ∃ s : State, s.Inv ∧ step s = .fault .srcByteNoValue :=
  ⟨run .plane { planeState 2#8 8#8 0#20 with src := [] }, inv_of _ (by decide) fun _ _ => ⟨.plane, rfl⟩, rfl⟩

theorem witness_AcceptedCommandCompletesWhileTheHostWaits :
    ∃ s : State, s.Inv ∧ s.phase = .busy ∧ (4#24).toNat = 0x000004 ∧
      s.events = List.replicate 3 (.host (.read32 4#24)) :=
  ⟨{ busyPlane with events := List.replicate 3 (.host (.read32 4#24)) },
    inv_of _ (by decide) fun _ _ => ⟨.plane, rfl⟩, rfl, rfl, rfl⟩

end Sys2Proof.Tests
end

section
/-! Proofs of the state family (10_state.md), part one: what a step does to single fields of STATUS and to
the parameters. -/

namespace Sys2Proof.Machine

/-! ## A completion and a reset -/

/-- R103: every completion sets DONE. -/
theorem complete_next_done {r : CmdResult} {t : State} (h : complete r = .next t) : t.done = true := by
  cases r with
  | ok u => cases h; rfl
  | error e u => cases h; rfl
  | fault f => cases h

/-- A latched command, legal or not, that ends in a next state ends in a completion. -/
theorem runLatched_next_complete {s t : State} (h : runLatched s = .next t) :
    ∃ r, complete r = .next t := by
  unfold runLatched at h
  split at h
  · split at h
    · exact ⟨_, exec_eq_complete _ s ▸ h⟩
    · cases h
  · exact ⟨_, h⟩

theorem step_turn_done {s t : State} (hs : s.SequencerTurn) (h : step s = .next t) : t.done = true := by
  rw [step_sequencer hs] at h
  obtain ⟨r, hr⟩ := runLatched_next_complete h
  exact complete_next_done hr

theorem step_reset {s : State} (h : s.events.head? = some .reset) :
    step s = .next s.popped.resetInput := step_event h

/-! ## Register and byte writes -/

theorem writeCmd_idle {s : State} (w : Word) (h : s.phase = .idle) : s.writeCmd w = s.accept w := by
  simp [State.writeCmd, h]

theorem writeCmd_busy {s : State} (w : Word) (h : s.phase = .busy) :
    s.writeCmd w = { s with ovr := true } := by
  simp [State.writeCmd, h]

/-- R24: a STATUS write changes DONE alone, and only where bit 1 is set. -/
theorem writeReg_status (w : Word) (s : State) :
    s.writeReg .status w = { s with done := if w.getLsbD 1 then false else s.done } := by
  simp only [State.writeReg]
  cases w.getLsbD 1 <;> simp

/-- R26: a register write keeps DONE unless it is an accept or a STATUS write with bit 1 set. -/
theorem writeReg_keeps_done {r : Reg} {w : Word} {s : State} (hc : r = .cmd → s.phase = .busy)
    (hs : r = .status → w.getLsbD 1 = false) : (s.writeReg r w).done = s.done := by
  cases r with
  | cmd => rw [State.writeReg, writeCmd_busy w (hc rfl)]
  | status => simp only [writeReg_status, hs rfl, Bool.false_eq_true, if_false]
  | _ => rfl

/-- R28: of the registers, only a CMD write while BUSY touches OVR. -/
theorem writeReg_keeps_ovr {r : Reg} {w : Word} {s : State} (hc : r = .cmd → s.phase = .idle) :
    (s.writeReg r w).ovr = s.ovr := by
  cases r with
  | cmd => rw [State.writeReg, writeCmd_idle w (hc rfl), State.accept_ovr]
  | _ => rfl

/-- A byte write that is not refused goes to SRC or to FRAME. -/
theorem step_write8_next {s t : State} {addr : BitVec 24} {v : Byte} (ha : s.hostNext (.write8 addr v))
    (h : step s = .next t) : ∃ k, t = s.popped.writeSrc k v ∨ t = s.popped.writeFrame k v := by
  rw [step_host ha] at h
  rcases busAt8_cases addr s.popped (fun a => .next (s.popped.writeSrc a v))
    (fun a => .next (s.popped.writeFrame a v)) with ⟨k, -, -, he⟩ | ⟨k, -, -, he⟩ | ⟨-, e, he⟩
  · exact ⟨k, .inl (Host.Outcome.next.inj (h.symm.trans he))⟩
  · exact ⟨k, .inr (Host.Outcome.next.inj (h.symm.trans he))⟩
  · cases h.symm.trans he

theorem step_write8_busy_ovr {s t : State} {addr : BitVec 24} {v : Byte} (hb : s.phase = .busy)
    (ha : s.hostNext (.write8 addr v)) (h : step s = .next t) : t.ovr = true := by
  obtain ⟨k, rfl | rfl⟩ := step_write8_next ha h
  · simp [writeSrc_eq, hb]
  · simp [writeFrame_eq, hb]

/-! ## All steps -/

/-- R26: a step that is no completion, reset, accept or acknowledgement keeps DONE. -/
theorem step_keeps_done {s t : State} (h : step s = .next t) (hs : ¬s.SequencerTurn)
    (hr : s.events.head? ≠ some .reset)
    (hw : ∀ addr w, s.hostNext (.write32 addr w) →
      ¬(addr.toNat = 0x000000 ∧ s.phase = .idle) ∧ ¬(addr.toNat = 0x000004 ∧ w.getLsbD 1 = true)) :
    t.done = s.done := by
  cases step_effect h with
  | skip => rfl
  | failed i e ht => exact absurd ht hs
  | succeeded i fr g v r w ht => exact absurd ht hs
  | illegal ht => exact absurd ht hs
  | reset he => exact absurd he hr
  | read => rfl
  | writeReg addr w r ha hreg =>
    obtain ⟨hcmd, hstatus⟩ := hw addr w ha
    refine writeReg_keeps_done (fun hc => ?_) (fun hst => ?_)
    · cases hp : s.phase with
      | busy => exact hp
      | idle => exact absurd ⟨by rw [hreg, hc]; rfl, hp⟩ hcmd
    · exact Bool.eq_false_iff.2 fun hb => hstatus ⟨by rw [hreg, hst]; rfl, hb⟩
  | writeSrc => simp [writeSrc_eq]
  | writeFrame => simp [writeFrame_eq]

/-- R28: a step that is no reset and drops no write keeps OVR. -/
theorem step_keeps_ovr {s t : State} (h : step s = .next t) (hr : s.events.head? ≠ some .reset)
    (hw : ¬(s.phase = .busy ∧
      ((∃ addr w, s.hostNext (.write32 addr w) ∧ addr.toNat = 0x000000) ∨
        (∃ addr v, s.hostNext (.write8 addr v))))) :
    t.ovr = s.ovr := by
  have idle : ((∃ addr w, s.hostNext (.write32 addr w) ∧ addr.toNat = 0x000000) ∨
      (∃ addr v, s.hostNext (.write8 addr v))) → s.phase = .idle := fun ha => by
    cases hp : s.phase with
    | idle => rfl
    | busy => exact absurd ⟨hp, ha⟩ hw
  cases step_effect h with
  | skip => rfl
  | failed => rfl
  | succeeded => rfl
  | illegal => rfl
  | reset he => exact absurd he hr
  | read => rfl
  | writeReg addr w r ha hreg =>
    exact writeReg_keeps_ovr fun hc => idle (.inl ⟨addr, w, ha, by rw [hreg, hc]; rfl⟩)
  | writeSrc addr v k ha => simp [writeSrc_eq, idle (.inr ⟨addr, v, ha⟩)]
  | writeFrame addr v k ha => simp [writeFrame_eq, idle (.inr ⟨addr, v, ha⟩)]

/-- The parameters are configuration: no step changes them. -/
theorem step_keeps_params {s t : State} (h : step s = .next t) : t.params = s.params := by
  cases step_effect h with
  | writeReg addr w r => obtain ⟨-, -, -, -, -, hp⟩ := writeReg_frame r w s.popped; exact hp
  | writeSrc => simp [writeSrc_eq]
  | writeFrame => simp [writeFrame_eq]
  | _ => rfl

/-! ## DONE and OVR over every step: the obligations -/

/-- Settles O27, clause by clause: the completion, the reset, the accept and the acknowledgement each by the
state its step leaves, and the rest by the inversion of a step. -/
theorem doneIsSetByCompletionAndClearedThreeWays :
    Obligations.DoneIsSetByCompletionAndClearedThreeWays := by
  intro s t h
  refine ⟨fun hs => step_turn_done hs h, fun hr => ?_, fun addr w ha h0 hp => ?_,
    fun addr w ha h4 hb => ?_, step_keeps_done h⟩
  · cases (step_reset hr).symm.trans h
    rfl
  · cases (step_write32 (r := .cmd) ha h0).symm.trans h
    rw [State.writeReg, writeCmd_idle (s := s.popped) w hp, State.accept_done]
  · cases (step_write32 (r := .status) ha h4).symm.trans h
    rw [writeReg_status, if_pos hb]

/-- Settles O28: reset and the three dropped writes by the state their step leaves, the rest by the inversion
of a step. -/
theorem overrunIsStickyUntilReset : Obligations.OverrunIsStickyUntilReset := by
  intro s t h
  refine ⟨fun hr => ?_, fun hb ha => ?_, step_keeps_ovr h⟩
  · cases (step_reset hr).symm.trans h
    rfl
  · obtain ⟨addr, w, ha, h0⟩ | ⟨addr, v, ha⟩ := ha
    · cases (step_write32 (r := .cmd) ha h0).symm.trans h
      rw [State.writeReg, writeCmd_busy (s := s.popped) w hb]
    · exact step_write8_busy_ovr hb ha h

end Sys2Proof.Machine
end

section
/-! Proofs of the state family (10_state.md), part two: STATUS, PARAM and the reset values as they read. -/

namespace Sys2Proof.Machine

/-! ## The fields of STATUS -/

theorem statusWord_errCode (s : State) : s.statusWord.extractLsb' 4 4 = s.errCode := by
  refine BitVec.eq_of_getLsbD_eq fun i hi => ?_
  rw [BitVec.getLsbD_extractLsb', statusWord_getLsbD]
  simp (disch := omega) only [if_pos, if_neg]
  simp [hi]

theorem statusWord_fmtCause (s : State) : s.statusWord.extractLsb' 8 4 = s.fmtCause := by
  refine BitVec.eq_of_getLsbD_eq fun i hi => ?_
  rw [BitVec.getLsbD_extractLsb', statusWord_getLsbD]
  simp (disch := omega) only [if_pos, if_neg]
  simp [hi]

/-- R24, R42: bits [31:13] read as 0. -/
theorem statusWord_reserved (s : State) : s.statusWord.extractLsb' 13 19 = 0#19 := by
  refine BitVec.eq_of_getLsbD_eq fun i hi => ?_
  rw [BitVec.getLsbD_extractLsb', statusWord_getLsbD]
  simp (disch := omega) only [if_neg]
  simp

/-- R25: BUSY shows PHASE. -/
theorem statusWord_busy (s : State) : s.statusWord.getLsbD 0 = true ↔ s.phase = .busy := by
  rw [statusWord_getLsbD]; exact beq_iff_eq

/-! ## The bytes of PARAM -/

theorem paramWord_bytes (p : Params) :
    (Params.word p).extractLsb' 0 8 = BitVec.ofNat 8 p.lw ∧
    (Params.word p).extractLsb' 8 8 = BitVec.ofNat 8 p.lh ∧
    (Params.word p).extractLsb' 16 8 = BitVec.ofNat 8 p.frameAw ∧
    (Params.word p).extractLsb' 24 8 = 0#8 := by
  have hw := p.lw_le; have hh := p.lh_le; have ha := p.frameAw_le
  refine ⟨?_, ?_, ?_, ?_⟩ <;> apply BitVec.eq_of_toNat_eq <;>
    simp only [BitVec.extractLsb'_toNat, paramWord_toNat, BitVec.toNat_ofNat, Nat.shiftRight_eq_div_pow] <;>
    omega

/-! ## The registers after reset -/

theorem resetOf_readReg (p : Params) {r : Reg} (h : r ≠ .param) : (State.resetOf p).readReg r = 0#32 := by
  cases r with
  | param => exact absurd rfl h
  | dstBase => simp [State.readReg, State.dstField, State.resetOf]
  | status =>
    show (0#19 ++ BitVec.ofBool false ++ 0#4 ++ 0#4 ++ BitVec.ofBool false ++ BitVec.ofBool false
      ++ BitVec.ofBool false ++ BitVec.ofBool false : Word) = 0#32
    decide
  | geom => show (0#8 ++ 0#8 : BitVec 16).setWidth 32 = 0#32; decide
  | query => show (0#8 ++ 0#8 : BitVec 16).setWidth 32 = 0#32; decide
  | _ => rfl

/-! ## The reads' obligations -/

/-- Settles O36: the word read is `State.statusWord`, whose fields stand in their bits; the write is
`State.writeReg` of STATUS. -/
theorem statusReadShowsItsFields : Obligations.StatusReadShowsItsFields := by
  intro s addr h4
  refine ⟨fun ha => ⟨s.statusWord, step_read32 (r := .status) ha h4, statusWord_busy s,
    statusWord_getLsbD s 1, statusWord_getLsbD s 2, statusWord_getLsbD s 3, statusWord_errCode s,
    statusWord_fmtCause s, statusWord_getLsbD s 12, statusWord_reserved s⟩, fun w ha => ?_⟩
  rw [step_write32 (r := .status) ha h4, writeReg_status, State.popped_done]

/-- Settles O39: PARAM is computed from the parameters alone, and no step changes them. -/
theorem paramIsConstant : Obligations.ParamIsConstant := by
  refine ⟨fun s => paramWord_bytes s.params, fun s t h => ?_, fun s addr w ha h28 => ?_⟩
  · have hp := step_keeps_params h
    exact ⟨hp, congrArg Params.word hp⟩
  · exact step_write32 (r := .param) ha h28

/-- Settles O49: each register by its reset value, PARAM by its number. -/
theorem resetLeavesTheTableOfResetValues : Obligations.ResetLeavesTheTableOfResetValues := by
  refine ⟨rfl, fun p s hs => ?_⟩
  subst hs
  exact ⟨rfl, rfl, fun r => resetOf_readReg p, paramWord_toNat p, fun k => List.getElem?_nil,
    fun a => rfl, fun a => rfl, rfl⟩

end Sys2Proof.Machine
end

section
/-! Proofs of the memory family (20_memory.md): which host accesses the address map admits. -/

namespace Sys2Proof.Machine

/-! ## The addresses of the map -/

/-- R41: the registers stand at the multiples of 4 below 0x2C. -/
theorem exists_reg_addr_iff (n : Nat) : (∃ r, n = Reg.addr r) ↔ n < 0x2C ∧ n % 4 = 0 := by
  constructor
  · rintro ⟨r, rfl⟩
    cases r <;> decide
  · rintro ⟨hlt, hmod⟩
    have registers : ∀ k < 11, (regAt (4 * k)).isSome := by decide
    obtain ⟨r, hr⟩ := Option.isSome_iff_exists.mp (registers (n / 4) (by omega))
    exact ⟨r, by rw [← regAt_eq_some hr]; omega⟩

/-! ## A host access that reaches its target is not refused -/

theorem hostReadReg_not_refused (r : Reg) (s : State) (e : Refusal) : hostReadReg r s ≠ .refused e := nofun

theorem hostReadSrc_not_refused (a : Nat) (s : State) (e : Refusal) : hostReadSrc a s ≠ .refused e := by
  unfold hostReadSrc
  split <;> exact nofun

theorem hostReadFrame_not_refused (a : Nat) (s : State) (e : Refusal) :
    hostReadFrame a s ≠ .refused e := by
  unfold hostReadFrame
  split
  · exact nofun
  · split <;> exact nofun

/-! ## What each width refuses -/

/-- R65, R66: where no register refuses, a 32-bit access is refused exactly where no register stands. -/
theorem busAt32_refused_iff {addr : BitVec 24} {s : State} {f : Reg → Host.Outcome State Fault Refusal}
    (hf : ∀ r e, f r ≠ .refused e) :
    (∃ e, busAt32 addr s f = .refused e) ↔ ¬(addr.toNat < 0x2C ∧ addr.toNat % 4 = 0) := by
  rw [← exists_reg_addr_iff]
  rcases busAt32_cases addr s f with ⟨r, hr, he⟩ | ⟨hnone, hrefused⟩
  · exact iff_of_false (fun ⟨e, h⟩ => hf r e (he.symm.trans h)) (not_not_intro ⟨r, hr⟩)
  · exact iff_of_true hrefused (not_exists.mpr hnone)

/-- R65, R66: where no byte refuses, an 8-bit access is refused exactly outside SRC and FRAME. -/
theorem busAt8_refused_iff {addr : BitVec 24} {s : State} {f g : Nat → Host.Outcome State Fault Refusal}
    (hf : ∀ a e, f a ≠ .refused e) (hg : ∀ a e, g a ≠ .refused e) :
    (∃ e, busAt8 addr s f g = .refused e) ↔
      ¬(0x010000 ≤ addr.toNat ∧ addr.toNat ≤ 0x01FFFF) ∧
      ¬(0x100000 ≤ addr.toNat ∧ addr.toNat < 0x100000 + s.params.frameSize) := by
  rcases busAt8_cases addr s f g with ⟨a, ha, hr, he⟩ | ⟨a, ha, hr, he⟩ | ⟨hout, hrefused⟩
  · exact iff_of_false (fun ⟨e, h⟩ => hf a e (he.symm.trans h)) (by omega)
  · exact iff_of_false (fun ⟨e, h⟩ => hg a e (he.symm.trans h)) (by omega)
  · exact iff_of_true hrefused (by omega)

/-! ## The obligation -/

/-- Settles O47: a host access is the step's bus transaction, which a register and a byte never refuse and
the rest of the map always does. -/
theorem accessesAreRefusedExactlyOutsideTheMap :
    Obligations.AccessesAreRefusedExactlyOutsideTheMap := by
  intro s addr b h w
  refine ⟨?_, ?_, ?_⟩
  · rintro (ha | ha) <;> rw [step_host ha] <;> exact refuseAccess_eq s.params addr
  · rintro (ha | ha) <;> rw [step_host ha]
    · exact busAt32_refused_iff fun r => hostReadReg_not_refused r _
    · exact busAt32_refused_iff nofun
  · rintro (ha | ha) <;> rw [step_host ha]
    · exact busAt8_refused_iff (fun a => hostReadSrc_not_refused a _) fun a => hostReadFrame_not_refused a _
    · exact busAt8_refused_iff nofun nofun

end Sys2Proof.Machine
end

section
/-! Proofs of the command sequencer's family (40_command_sequencer.md): accept, the dropped command, the
illegal command and NOP. -/

namespace Sys2Proof.Machine

/-! ## The legal words -/

/-- The eight commands, in the order of the table of 30_encoding.md R83. -/
def commands : List Instr := [.nop, .plane, .planeM, .sprite, .spriteM, .cells, .solid, .tile]

theorem mem_commands (i : Instr) : i ∈ commands := by cases i <;> decide

/-- The last column of R83's table. -/
theorem commands_map_encode : commands.map encode =
    [0x00000000#32, 0x00000001#32, 0x00000009#32, 0x00000002#32, 0x0000000A#32, 0x00000003#32,
      0x00000004#32, 0x00000005#32] := by
  decide

theorem legalWord_iff_mem {w : Word} : legalWord w = true ↔ w ∈ commands.map encode := by
  simp only [legalWord_iff, decode_ok_iff, List.mem_map, mem_commands, true_and, eq_comm (a := w)]

/-! ## Accept -/

theorem dstField_eq_dstBase {s : State} (h : s.dstBase.toNat < s.params.frameSize) :
    s.dstField = s.dstBase :=
  BitVec.eq_of_toNat_eq (by rw [dstField_toNat, Nat.mod_eq_of_lt h])

theorem step_writeCmd_idle {s : State} {w : Word} {addr : BitVec 24} (hp : s.phase = .idle)
    (ha : s.hostNext (.write32 addr w)) (h0 : addr.toNat = 0x000000) :
    step s = .next (s.popped.accept w) := by
  rw [step_write32 (r := .cmd) ha h0, State.writeReg, writeCmd_idle (s := s.popped) w hp]

theorem step_writeCmd_busy {s : State} {w : Word} {addr : BitVec 24} (hp : s.phase = .busy)
    (ha : s.hostNext (.write32 addr w)) (h0 : addr.toNat = 0x000000) :
    step s = .next { s.popped with ovr := true } := by
  rw [step_write32 (r := .cmd) ha h0, State.writeReg, writeCmd_busy (s := s.popped) w hp]

/-! ## The illegal command and NOP -/

/-- R108: at the sequencer's turn after the accept of an illegal word, the step is the error completion. -/
theorem step_accept_illegal {s : State} {w : Word} {rest : List Event} (hw : legalWord w = false)
    (he : s.events = .sequencer :: rest) :
    step (s.accept w) = .next ((s.accept w).popped.finishError .illegal) := by
  have turn : (s.accept w).SequencerTurn := ⟨rfl, .inr (by rw [State.accept_events, he]; rfl)⟩
  rw [step_sequencer turn, runLatched_illegal hw]

theorem exec_nop (s : State) : exec .nop s = .next (State.finish { s with result := 0#32 }) := rfl

/-! ## The obligations -/

/-- Settles O7: the step is the accept, whose latched DST_BASE field is the register itself and whose latched
legality is membership in the table. -/
theorem acceptLatchesTheWordAndTheOperands : Obligations.AcceptLatchesTheWordAndTheOperands := by
  intro s w addr hp ha h0 hd
  have hdst : s.popped.dstField = s.dstBase := dstField_eq_dstBase (s := s.popped) hd
  have hok := Bool.eq_iff_iff.2 ((legalWord_iff_mem (w := w)).trans decide_eq_true_iff.symm)
  rw [commands_map_encode] at hok
  rw [step_writeCmd_idle hp ha h0, State.accept, State.latchesFor, hdst, hok]
  rfl

/-- Settles O9: the accept latches WORD_OK = 0, and the next turn is the error completion. -/
theorem illegalWordCompletesWithErrorIllegal : Obligations.IllegalWordCompletesWithErrorIllegal := by
  intro s w addr rest hp h0 hw he
  have ha : s.hostNext (.write32 addr w) := by rw [State.hostNext, he]; rfl
  have hpop : s.popped = { s with events := .sequencer :: rest } := by rw [State.popped, he]; rfl
  have hill : legalWord w = false :=
    Bool.eq_false_iff.2 fun hl => hw (commands_map_encode ▸ legalWord_iff_mem.1 hl)
  refine ⟨s.latchesFor w, ?_⟩
  rw [run_succ (step_writeCmd_idle hp ha h0), run_one, hpop, step_accept_illegal hill rfl]
  rfl

/-- Settles O8: the drop is the BUSY branch of a CMD write; the rest is R28's statement over all steps, whose
writes either set OVR or keep it. -/
theorem commandWriteWhileBusyIsDropped : Obligations.CommandWriteWhileBusyIsDropped := by
  refine ⟨fun s w addr => step_writeCmd_busy, fun s t hs h hr => ?_⟩
  obtain ⟨-, hset, hkeep⟩ := overrunIsStickyUntilReset s t h
  by_contra ht
  have hsame : t.ovr = s.ovr := hkeep hr fun ⟨hb, hdrop⟩ => ht (hset hb hdrop)
  exact ht (hsame.trans hs)

/-- Settles O10: a BUSY state that meets the invariant has its error fields clear already, so completion with
success leaves them clear. -/
theorem nopCompletesAndClearsResult : Obligations.NopCompletesAndClearsResult := by
  refine ⟨by decide, fun s hi hb => ?_⟩
  calc exec .nop s
      = exec .nop { s with err := false, errCode := 0#4, fmtCause := 0#4 } := by rw [hi.clear_eq hb]
    _ = _ := exec_nop _

end Sys2Proof.Machine
end

section
/-! Proofs of the bit-plane unpacker's family (41_bitplane_unpacker.md): the sample rule of UNPACK8 and the
two values a sample can have. -/

namespace Sys2Proof.Machine

/-! ## One sample -/

/-- R120's expression `(v >> b) & 1` reads bit b of v. -/
theorem shiftRight_and_one_eq_one_iff (v : Byte) (b : Nat) :
    (v >>> b) &&& 1#8 = 1#8 ↔ v.getLsbD b = true := by
  rw [BitVec.and_one_eq_setWidth_ofBool_getLsbD, BitVec.getLsbD_ushiftRight, Nat.add_zero]
  cases v.getLsbD b <;> decide

theorem unpack8_of_ne {v : Byte} {m : Bool} {b : Nat} (h : v.getLsbD b ≠ m) : unpack8 v m b = 0xFF#8 :=
  if_pos (bne_iff_ne.2 h)

theorem unpack8_of_eq {v : Byte} {m : Bool} {b : Nat} (h : v.getLsbD b = m) : unpack8 v m b = 0x00#8 :=
  if_neg (by simp [h])

/-- R120: the other polarity gives the bitwise complement. -/
theorem unpack8_not (v : Byte) (m : Bool) (b : Nat) : unpack8 v (!m) b = ~~~ unpack8 v m b := by
  by_cases h : v.getLsbD b = m
  · rw [unpack8_of_eq h, unpack8_of_ne (by simp [h])]; decide
  · rw [unpack8_of_ne h, unpack8_of_eq (Bool.eq_not_of_ne h)]; decide

/-! ## FRAME after a command -/

/-- Each byte of `fr` is as it was in `fr0`, or black, or white (R121). -/
def Memory.OnlyBlackOrWhiteSince (fr0 fr : Memory) : Prop :=
  ∀ a, fr.read a = fr0.read a ∨ fr.read a = some 0x00#8 ∨ fr.read a = some 0xFF#8

theorem Memory.OnlyBlackOrWhiteSince.refl (fr : Memory) : fr.OnlyBlackOrWhiteSince fr := fun _ => .inl rfl

/-- The write of a sample is one more byte that is black or white. -/
theorem Memory.OnlyBlackOrWhiteSince.write {fr0 fr : Memory} (h : fr0.OnlyBlackOrWhiteSince fr) (a : Nat)
    {v : Byte} (hv : v = 0x00#8 ∨ v = 0xFF#8) : fr0.OnlyBlackOrWhiteSince (fr.write a v) := by
  intro b
  rw [Memory.read_write]
  split
  · exact .inr (hv.imp (congrArg some) (congrArg some))
  · exact h b

/-! ## The obligations -/

/-- Settles O11: a sample is white exactly where the bit and the mask differ, and the two polarities are
complements. -/
theorem unpackedSampleIsWhiteWhereTheBitDiffersFromTheMask :
    Obligations.UnpackedSampleIsWhiteWhereTheBitDiffersFromTheMask := by
  refine fun v b _ => ⟨fun m => ?_, unpack8_not v false b⟩
  have differs : ((v >>> b) &&& 1#8 = 1#8) ≠ (m = true) ↔ v.getLsbD b ≠ m := by
    rw [shiftRight_and_one_eq_one_iff, ne_eq, eq_iff_iff, ← Bool.eq_iff_iff]
  split
  · exact unpack8_of_ne (differs.1 ‹_›)
  · exact unpack8_of_eq (not_not.1 (mt differs.2 ‹_›))

/-- Settles O32: a command that succeeds changes FRAME by writes of samples alone, each black or white; every
other end of the sequencer's turn leaves FRAME as it was. -/
theorem everySampleWrittenIsBlackOrWhite : Obligations.EverySampleWrittenIsBlackOrWhite := by
  intro s t hs h
  show s.frame.OnlyBlackOrWhiteSince t.frame
  cases step_effect h with
  | skip hi => rw [hs.1] at hi; cases hi
  | failed => exact .refl _
  | succeeded i fr g v r w _ _ hF =>
    exact hF s.frame.OnlyBlackOrWhiteSince (.refl _) fun fr a v _ hv hfr => hfr.write a hv
  | illegal => exact .refl _
  | reset hr => exact absurd hr (seq_not_reset hs)
  | read _ _ _ ha => exact absurd ha (seq_not_host hs)
  | writeReg _ _ _ ha => exact absurd ha (seq_not_host hs)
  | writeSrc _ _ _ ha => exact absurd ha (seq_not_host hs)
  | writeFrame _ _ _ ha => exact absurd ha (seq_not_host hs)

end Sys2Proof.Machine
end

section
/-! Proofs of the sprite decoder's family (42_sprite_decoder.md): what SPRITE and SPRITE.M do on a buffer that
passes every check of R142, and the samples at their coordinates. -/

namespace Sys2Proof.Machine

/-! ## Places in the stream -/

/-- Entry `k` of block `i` lies among the `n` blocks of `c` entries each: frames of bytes (R143) and rows of
pixels alike. -/
theorem block_index_lt {i n k c : Nat} (hi : i < n) (hk : k < c) : i * c + k < n * c :=
  calc i * c + k < (i + 1) * c := by rw [Nat.succ_mul]; omega
    _ ≤ n * c := Nat.mul_le_mul_right c hi

theorem pixel_row {W x : Nat} (y : Nat) (hx : x < W) : (y * W + x) / W = y := by
  rw [Nat.mul_comm, Nat.mul_add_div (Nat.zero_lt_of_lt hx), Nat.div_eq_of_lt hx, Nat.add_zero]

theorem pixel_lt {W H x y : Nat} (hx : x < W) (hy : y < H) : y * W + x < W * H := by
  rw [Nat.mul_comm W]; exact block_index_lt hy hx

/-! ## The declared buffer -/

/-- A written stretch of SRC as the function of its bytes. -/
theorem State.srcWritten.exists_bytes {s : State} {a n : Nat} (h : s.srcWritten a n) :
    ∃ byte : Nat → Byte, ∀ k, k < n → s.src.read (a + k) = some (byte k) :=
  ⟨fun k => (s.src.read (a + k)).getD 0#8, fun k hk => by
    obtain ⟨v, hv⟩ := Option.isSome_iff_exists.1 (h k hk)
    simp only [hv, Option.getD_some]⟩

/-! ## SPRITE with its checks passed -/

/-- SPR_INFO with the header bytes in its two byte fields (R39). -/
theorem sprInfoWord_bytes (n : Nat) (w h : Byte) :
    sprInfoWord n w.toNat h.toNat = BitVec.ofNat 16 n ++ h ++ w := by
  simp [sprInfoWord]

theorem frameCount_eq {s : State} {n W H : Nat} (hfs : 0 < frameBytes W H)
    (hn : s.bufLen - 2 = n * frameBytes W H) : s.frameCount W H = n := by
  rw [State.frameCount, hn, Nat.mul_div_cancel n hfs]

theorem exec_spriteInstr (m : Bool) (s : State) : exec (spriteInstr m) s = complete (sprite m s) := by
  cases m <;> rfl

/-- The two checks before the header passed, SPRITE goes on with the header bytes. -/
theorem sprite_of_header {m : Bool} {s : State} {w h : Byte} (hr : s.bufStart + s.bufLen ≤ 65536)
    (hl : 2 ≤ s.bufLen) (hw : s.buf 0 = .ok w) (hh : s.buf 1 = .ok h) :
    sprite m s = spriteBody m w.toNat h.toNat s := by
  have range : s.pastSrc = false := decide_eq_false (Nat.not_lt.2 hr)
  simp [sprite, range, Nat.not_lt.2 hl, hw, hh]

/-- The four checks after the header passed, SPRITE ends with what its loop leaves in FRAME. -/
theorem spriteBody_of_checks {m : Bool} {s : State} {n W H : Nat} {fr : Memory} (hW : W ≠ 0) (hH : H ≠ 0)
    (h8 : H % 8 = 0) (hfs : 0 < frameBytes W H) (hn : s.bufLen - 2 = n * frameBytes W H)
    (hcap : s.outStart + n * W * H ≤ s.params.frameSize) (hfr : unpackFrames s n W H m = .ok fr) :
    spriteBody m W H s =
      .ok { s with frame := fr, result := BitVec.ofNat 32 n, sprInfo := sprInfoWord n W H } := by
  have count : s.frameCount W H = n := frameCount_eq hfs hn
  have whole : (s.bufLen - 2) % frameBytes W H = 0 := by rw [hn, Nat.mul_mod_left]
  simp [spriteBody, hW, hH, h8, whole, count, Nat.not_lt.2 hcap, hfr]

/-! ## The obligation -/

/-- Settles O15: the checks passed, the command is `unpackFrames`, whose closed form at frame i and pixel
offset y*W + x is R146's; completion adds nothing to error fields that are clear while BUSY. -/
theorem spriteWritesEveryFrameInStreamOrder : Obligations.SpriteWritesEveryFrameInStreamOrder := by
  rintro m s w h _ _ n hi hb hr hl hw hh rfl rfl hW hH h8 hn hcap hsrc
  have hfs : 0 < w.toNat * h.toNat / 8 := by
    simpa using packed_index_lt (r := 0) (Nat.pos_of_ne_zero hW) (by omega) h8
  obtain ⟨byte, hbyte⟩ := hsrc.exists_bytes
  have hbuf : ∀ k, k < n * frameBytes w.toNat h.toNat → s.buf (2 + k) = .ok (byte (2 + k)) :=
    fun k hk => State.buf_eq_ok.2 (hbyte _ (by rw [frameBytes] at hk; omega))
  obtain ⟨fr, hfr, hin, hout⟩ := unpackFrames_spec (m := m) (byte := fun k => byte (2 + k)) h8 hbuf
  have hbody := spriteBody_of_checks hW hH h8 hfs hn hcap hfr
  refine ⟨fr, ?_, fun i x y hi' hx hy => ⟨_, hbyte _ ?_, ?_⟩, hout⟩
  · obtain ⟨herr, hcode, hcause, -⟩ := hi.clear hb
    rw [exec_spriteInstr, sprite_of_header hr hl (State.buf_eq_ok.2 hw) (State.buf_eq_ok.2 hh), hbody,
      sprInfoWord_bytes]
    simp [complete, State.finish, herr, hcode, hcause]
  · have := block_index_lt hi' (packed_index_lt (r := y / 8) hx (by omega) h8)
    omega
  · simpa only [pixel_row y hx, Nat.mul_add_mod_of_lt hx, Nat.add_assoc, State.outStart, frameBytes,
      unpack8] using hin i (y * w.toNat + x) hi' (pixel_lt hx hy)

end Sys2Proof.Machine
end

section
/-! Proofs of the auto-tiler's family (43_tilemap_auto_tiler.md): the bounds policy at its edges, the bits and
the locality of the tile index, and what SOLID and TILE answer. -/

namespace Sys2Proof.Machine

/-! ## The bounds policy -/

theorem not_hOob_iff {p : Params} {x : Int} : ¬hOob p x ↔ 0 ≤ x ∧ x < p.lw := by
  rw [not_or, not_lt, not_le]

theorem not_vOob_iff {p : Params} {y : Int} : ¬vOob p y ↔ 0 ≤ y ∧ y < p.lh := by
  rw [not_or, not_lt, not_le]

/-- R160's row-major index over the natural coordinates of a cell. -/
theorem gridCell_eq_getElem? (p : Params) (g : List Bool) {x y : Int} (hx : 0 ≤ x) (hy : 0 ≤ y) :
    gridCell p g x y = g[y.toNat * p.lw + x.toNat]? := by
  obtain ⟨x, rfl⟩ := Int.eq_ofNat_of_zero_le hx
  obtain ⟨y, rfl⟩ := Int.eq_ofNat_of_zero_le hy
  rfl

/-- R162 reads the grid only at a cell inside it. -/
theorem solidAt_congr {p : Params} {g g' : List Bool} {x y : Int}
    (h : ¬hOob p x → ¬vOob p y → gridCell p g x y = gridCell p g' x y) :
    solidAt p g x y = solidAt p g' x y := by
  by_cases hx : hOob p x <;> by_cases hy : vOob p y
  · rw [solidAt_corner hx hy, solidAt_corner hx hy]
  · rw [solidAt_hOob hx hy, solidAt_hOob hx hy]
  · rw [solidAt_vOob hx hy, solidAt_vOob hx hy]
  · rw [solidAt_inside hx hy, solidAt_inside hx hy, h hx hy]

/-! ## The tile index -/

/-- R163: an empty cell, whatever its neighbours. -/
theorem tileIndexAt_empty {p : Params} {g : List Bool} {x y : Int} (h : solidAt p g x y = some false) :
    tileIndexAt p g x y = some 16 := by
  rw [tileIndexAt, h]

/-- All a tile index can be: 16 for an empty cell, else `tileIndex` of the four neighbours. -/
theorem tileIndexAt_cases {p : Params} {g : List Bool} {x y : Int} {n : Nat}
    (h : tileIndexAt p g x y = some n) :
    (solidAt p g x y = some false ∧ n = 16) ∨
    (solidAt p g x y = some true ∧ ∃ right top left bottom : Bool,
      solidAt p g (x + 1) y = some right ∧ solidAt p g x (y - 1) = some top ∧
      solidAt p g (x - 1) y = some left ∧ solidAt p g x (y + 1) = some bottom ∧
      n = tileIndex right top left bottom) := by
  unfold tileIndexAt at h
  split at h
  · cases h
  · cases h
    exact .inl ⟨‹_›, rfl⟩
  · split at h
    · cases h
      exact .inr ⟨‹_›, _, _, _, _, ‹_›, ‹_›, ‹_›, ‹_›, rfl⟩
    · cases h

/-- R163 reads `solidAt` at the cell and its four neighbours alone. -/
theorem tileIndexAt_congr {p : Params} {g g' : List Bool} {x y : Int}
    (hc : solidAt p g x y = solidAt p g' x y) (hr : solidAt p g (x + 1) y = solidAt p g' (x + 1) y)
    (ht : solidAt p g x (y - 1) = solidAt p g' x (y - 1))
    (hl : solidAt p g (x - 1) y = solidAt p g' (x - 1) y)
    (hb : solidAt p g x (y + 1) = solidAt p g' x (y + 1)) :
    tileIndexAt p g x y = tileIndexAt p g' x y := by
  rw [tileIndexAt, hc, hr, ht, hl, hb, tileIndexAt]

theorem tileIndex_lt (right top left bottom : Bool) : tileIndex right top left bottom < 16 := by
  have hr := right.toNat_le; have ht := top.toNat_le
  have hl := left.toNat_le; have hb := bottom.toNat_le
  rw [tileIndex_eq_sum]
  omega

/-- R166: the four shifted bits stand each in its own place. -/
theorem tileIndex_testBit (right top left bottom : Bool) :
    (tileIndex right top left bottom).testBit 0 = right ∧
    (tileIndex right top left bottom).testBit 1 = top ∧
    (tileIndex right top left bottom).testBit 2 = left ∧
    (tileIndex right top left bottom).testBit 3 = bottom := by
  revert right top left bottom
  decide

/-! ## SOLID and TILE -/

/-- R103 for a command that wrote RESULT alone: the error fields are clear while BUSY and stay so. -/
theorem State.Inv.complete_result {s : State} (hi : s.Inv) (hb : s.phase = .busy) (r : Word) :
    complete (.ok { s with result := r }) = .next { s with
      phase := .idle, done := true, err := false, errCode := 0#4, fmtCause := 0#4, result := r } := by
  calc complete (.ok { s with result := r })
      = complete (.ok { s with err := false, errCode := 0#4, fmtCause := 0#4, result := r }) :=
        congrArg (fun u : State => complete (.ok { u with result := r })) (hi.clear_eq hb).symm
    _ = _ := rfl

theorem exec_solid_of_no_grid {s : State} (h : s.gv = false) :
    exec .solid s = .next (s.failed 4#4 0#4) := by
  rw [exec_eq_complete, cmdResult, solid, h]
  rfl

theorem exec_tile_of_no_grid {s : State} (h : s.gv = false) :
    exec .tile s = .next (s.failed 4#4 0#4) := by
  rw [exec_eq_complete, cmdResult, tile, h]
  rfl

theorem exec_solid_of_answer {s : State} {b : Bool} (hgv : s.gv = true)
    (hb : solidAt s.params s.grid s.queryX s.queryY = some b) :
    exec .solid s = complete (.ok { s with result := if b then 1#32 else 0#32 }) := by
  have word : BitVec.ofNat 32 b.toNat = if b then 1#32 else 0#32 := by cases b <;> rfl
  rw [exec_eq_complete, cmdResult, solid, if_pos hgv, hb, ← word]

theorem exec_tile_of_answer {s : State} {n : Nat} (hgv : s.gv = true)
    (hn : tileIndexAt s.params s.grid s.queryX s.queryY = some n) :
    exec .tile s = complete (.ok { s with result := BitVec.ofNat 32 n }) := by
  rw [exec_eq_complete, cmdResult, tile, if_pos hgv, hn]

/-! ## The obligations -/

/-- Settles O20: a loaded grid answers at every coordinate, and the four cases of R162 say what it answers. -/
theorem solidAnswersByTheBoundsPolicy : Obligations.SolidAnswersByTheBoundsPolicy := by
  refine ⟨by decide, ?_⟩
  rintro s x y hi hb rfl rfl
  refine ⟨exec_solid_of_no_grid, fun hgv => ?_⟩
  obtain ⟨b, hsolid⟩ := solidAt_isSome (hi.gridLoaded hgv) s.queryX s.queryY
  have answers {c : Bool} (hc : solidAt s.params s.grid s.queryX s.queryY = some c) : b = c :=
    Option.some.inj (hsolid.symm.trans hc)
  refine ⟨b, (exec_solid_of_answer hgv hsolid).trans (hi.complete_result hb _), fun hx hy => ?_,
    fun hx hy => ?_, fun hx hy => ?_, fun hx hy => ?_⟩
  · exact answers (solidAt_corner hx hy)
  · exact answers (solidAt_hOob hx (not_vOob_iff.2 hy))
  · exact answers (solidAt_vOob (not_hOob_iff.2 hx) hy)
  · rw [← gridCell_eq_getElem? _ _ hx.1 hy.1, ← solidAt_inside (not_hOob_iff.2 hx) (not_vOob_iff.2 hy)]
    exact hsolid

/-- Settles O21: a loaded grid answers at the cell and its four neighbours, and R163's or of shifted bits is
the sum of their weights. -/
theorem tileAnswersTheNeighbourIndex : Obligations.TileAnswersTheNeighbourIndex := by
  refine ⟨by decide, ?_⟩
  rintro s x y hi hb rfl rfl
  refine ⟨exec_tile_of_no_grid, fun hgv => ?_⟩
  have answers := solidAt_isSome (hi.gridLoaded hgv)
  obtain ⟨cell, hc⟩ := answers s.queryX s.queryY
  obtain ⟨right, hr⟩ := answers (s.queryX + 1) s.queryY
  obtain ⟨top, ht⟩ := answers s.queryX (s.queryY - 1)
  obtain ⟨left, hl⟩ := answers (s.queryX - 1) s.queryY
  obtain ⟨bottom, hbot⟩ := answers s.queryX (s.queryY + 1)
  refine ⟨cell, right, top, left, bottom, hc, hr, ht, hl, hbot, ?_⟩
  rw [exec_tile_of_answer hgv (tileIndexAt_eq hc hr ht hl hbot), hi.complete_result hb, tileIndex_eq_sum]

/-- Settles O23: an index is 16, or the or of four shifted bits, which is below 16. -/
theorem tileIndexBitsAreTheNeighbours : Obligations.TileIndexBitsAreTheNeighbours := by
  intro p g x y n h
  obtain ⟨hc, rfl⟩ | ⟨hc, right, top, left, bottom, hr, ht, hl, hb, rfl⟩ := tileIndexAt_cases h
  · exact ⟨Nat.le_refl 16, iff_of_true rfl hc, fun hs => nomatch hc.symm.trans hs⟩
  · have hlt := tileIndex_lt right top left bottom
    obtain ⟨b0, b1, b2, b3⟩ := tileIndex_testBit right top left bottom
    refine ⟨hlt.le, iff_of_false hlt.ne fun he => (nomatch hc.symm.trans he), fun _ => ?_⟩
    rw [b0, b1, b2, b3]
    exact ⟨hr, ht, hl, hb⟩

/-- Settles O24: the index reads `solidAt` at five coordinates, and `solidAt` reads the grid only at a cell
inside it, where the two grids agree. -/
theorem tileIndexDependsOnlyOnTheNeighbourhood : Obligations.TileIndexDependsOnlyOnTheNeighbourhood := by
  intro p g g' x y agree
  have same {u v : Int} (huv : u = x ∧ v = y ∨ (u = x + 1 ∨ u = x - 1) ∧ v = y ∨
      u = x ∧ (v = y + 1 ∨ v = y - 1)) : solidAt p g u v = solidAt p g' u v :=
    solidAt_congr fun hu hv => by
      obtain ⟨hu0, hu1⟩ := not_hOob_iff.1 hu
      obtain ⟨hv0, hv1⟩ := not_vOob_iff.1 hv
      rw [gridCell_eq_getElem? p g hu0 hv0, gridCell_eq_getElem? p g' hu0 hv0,
        agree u v hu0 hu1 hv0 hv1 huv]
  exact tileIndexAt_congr (same (.inl ⟨rfl, rfl⟩)) (same (.inr (.inl ⟨.inl rfl, rfl⟩)))
    (same (.inr (.inr ⟨rfl, .inr rfl⟩))) (same (.inr (.inl ⟨.inr rfl, rfl⟩)))
    (same (.inr (.inr ⟨rfl, .inl rfl⟩)))

/-- Settles O22: next to the map one coordinate is out of bounds and the other, being valid, is not, so R162's
corner case does not arise. -/
theorem mapEdgesAreSolidSidewaysAndOpenUpAndDown :
    Obligations.MapEdgesAreSolidSidewaysAndOpenUpAndDown := by
  refine fun p g => ⟨fun y hy0 hy1 => ?_, fun x hx0 hx1 => ?_, fun x y => tileIndexAt_empty⟩
  · have hy := not_vOob_iff.2 ⟨hy0, hy1⟩
    exact ⟨solidAt_hOob (.inl (by decide)) hy, solidAt_hOob (.inr le_rfl) hy⟩
  · have hx := not_hOob_iff.2 ⟨hx0, hx1⟩
    exact ⟨solidAt_vOob hx (.inl (by decide)), solidAt_vOob hx (.inr le_rfl)⟩

end Sys2Proof.Machine
end

section
/-! Proofs of the exceptions' family (60_exceptions.md): the interrupt line, what raises it and what the host
does to clear it. -/

namespace Sys2Proof.Machine

/-! ## The line by its two bits -/

theorem irq_eq_true_iff {s : State} : s.irq = true ↔ s.irqEn = true ∧ s.done = true := Bool.and_eq_true_iff

theorem irq_of_irqEn_false {s : State} (h : s.irqEn = false) : s.irq = false := by
  rw [State.irq, h, Bool.false_and]

theorem irq_of_done_false {s : State} (h : s.done = false) : s.irq = false := by
  rw [State.irq, h, Bool.and_false]

/-! ## IRQ_EN over every step -/

/-- R32: of the registers, only CTRL holds IRQ_EN. -/
theorem writeReg_keeps_irqEn {r : Reg} {w : Word} {s : State} (hc : r ≠ .ctrl) :
    (s.writeReg r w).irqEn = s.irqEn := by
  cases r with
  | ctrl => exact absurd rfl hc
  | cmd =>
    cases hp : s.phase with
    | idle => rw [State.writeReg, writeCmd_idle w hp, State.accept_irqEn]
    | busy => rw [State.writeReg, writeCmd_busy w hp]
  | _ => rfl

theorem step_writeCtrl {s : State} {w : Word} {addr : BitVec 24} (ha : s.hostNext (.write32 addr w))
    (h8 : addr.toNat = 0x000008) : step s = .next { s.popped with irqEn := w.getLsbD 0 } :=
  step_write32 (r := .ctrl) ha h8

/-- R32: a step that is no reset and no write of CTRL keeps IRQ_EN. -/
theorem step_keeps_irqEn {s t : State} (h : step s = .next t) (hr : s.events.head? ≠ some .reset)
    (hw : ∀ addr w, s.hostNext (.write32 addr w) → addr.toNat ≠ 0x000008) : t.irqEn = s.irqEn := by
  cases step_effect h with
  | reset he => exact absurd he hr
  | writeReg addr w r ha hreg =>
    exact writeReg_keeps_irqEn fun hc => hw addr w ha (by rw [hreg, hc]; rfl)
  | writeSrc => simp [writeSrc_eq]
  | writeFrame => simp [writeFrame_eq]
  | _ => rfl

theorem step_turn_keeps_irqEn {s t : State} (hs : s.SequencerTurn) (h : step s = .next t) :
    t.irqEn = s.irqEn :=
  step_keeps_irqEn h (seq_not_reset hs) fun _ _ ha => absurd ha (seq_not_host hs)

/-! ## DONE and the line over single steps -/

/-- R207: outside a completion DONE never rises, since every other step that changes it clears it. -/
theorem done_of_step_done {s t : State} (h : step s = .next t) (hs : ¬s.SequencerTurn)
    (ht : t.done = true) : s.done = true := by
  obtain ⟨-, hreset, haccept, hack, hkeep⟩ := doneIsSetByCompletionAndClearedThreeWays s t h
  have cleared : t.done ≠ false := Bool.ne_false_iff.2 ht
  exact ht ▸ (hkeep hs (fun hr => cleared (hreset hr)) fun addr w ha =>
    ⟨fun ⟨h0, hp⟩ => cleared (haccept addr w ha h0 hp),
      fun ⟨h4, hb⟩ => cleared (hack addr w ha h4 hb)⟩).symm

/-- R207: outside a completion the line rises only where the host writes 1 to CTRL.IRQ_EN beside a
pending DONE. -/
theorem irq_rises_by_writeCtrl {s t : State} (h : step s = .next t) (hs : ¬s.SequencerTurn)
    (hlow : s.irq = false) (hhigh : t.irq = true) :
    ∃ addr w, s.hostNext (.write32 addr w) ∧ addr.toNat = 0x000008 ∧ w.getLsbD 0 = true ∧
      s.done = true := by
  obtain ⟨hen, htd⟩ := irq_eq_true_iff.1 hhigh
  have hsd : s.done = true := done_of_step_done h hs htd
  have hne : t.irqEn ≠ s.irqEn := fun he =>
    Bool.eq_false_iff.1 hlow (irq_eq_true_iff.2 ⟨he ▸ hen, hsd⟩)
  have hreset : s.events.head? ≠ some .reset := fun hr => by
    cases (step_reset hr).symm.trans h
    cases hen
  by_contra hno
  refine hne (step_keeps_irqEn h hreset fun addr w ha h8 => hno ⟨addr, w, ha, h8, ?_, hsd⟩)
  cases (step_writeCtrl ha h8).symm.trans h
  exact hen

/-- R69, R208: a 32-bit read keeps DONE and IRQ_EN, being no completion, no reset and no write. -/
theorem step_read32_keeps_done_irqEn {s t : State} {addr : BitVec 24} (ha : s.hostNext (.read32 addr))
    (h : step s = .next t) : t.done = s.done ∧ t.irqEn = s.irqEn := by
  have noWrite : ∀ addr w, ¬s.hostNext (.write32 addr w) := fun _ _ hw => nomatch hostNext_inj ha hw
  exact ⟨step_keeps_done h (fun hs => seq_not_host hs ha) (host_not_reset ha) fun _ _ hw =>
      absurd hw (noWrite _ _),
    step_keeps_irqEn h (host_not_reset ha) fun _ _ hw => absurd hw (noWrite _ _)⟩

/-! ## The obligations -/

/-- Settles O40: a completion sets DONE and keeps IRQ_EN, a reset clears DONE, and a step that is neither can
raise the line by IRQ_EN only. -/
theorem interruptRisesOnlyByCompletionOrEnable : Obligations.InterruptRisesOnlyByCompletionOrEnable := by
  refine ⟨fun s => rfl, fun s t h => ⟨fun hs hen => ?_, fun hr => ?_, fun hlow hhigh => ?_⟩⟩
  · exact irq_eq_true_iff.2 ⟨(step_turn_keeps_irqEn hs h).trans hen, step_turn_done hs h⟩
  · cases (step_reset hr).symm.trans h
    rfl
  · exact or_iff_not_imp_left.2 fun hs => irq_rises_by_writeCtrl h hs hlow hhigh

/-- Settles O41: the acknowledgement and the accept lower the line by DONE, the mask lowers it by IRQ_EN, and a
register read keeps both bits. -/
theorem hostClearsTheInterruptThreeWays : Obligations.HostClearsTheInterruptThreeWays := by
  intro s t h
  obtain ⟨-, -, haccept, hack, -⟩ := doneIsSetByCompletionAndClearedThreeWays s t h
  refine ⟨fun addr w ha => ⟨fun h4 hb => ?_, fun h8 hb => ?_, fun h0 hp => ?_⟩, fun addr ha => ?_⟩
  · have hd := hack addr w ha h4 hb
    exact ⟨hd, irq_of_done_false hd⟩
  · cases (step_writeCtrl ha h8).symm.trans h
    exact ⟨rfl, irq_of_irqEn_false hb⟩
  · have hd := haccept addr w ha h0 hp
    exact ⟨hd, irq_of_done_false hd⟩
  · obtain ⟨hd, hen⟩ := step_read32_keeps_done_irqEn ha h
    exact ⟨hd, congrArg₂ Bool.and hen hd⟩

end Sys2Proof.Machine
end

section
/-! Proofs of the reset's and the hazards' family (70_reset_and_hazards.md): the host's writes while BUSY and
the reset input. -/

namespace Sys2Proof.Machine

/-! ## Host accesses while BUSY -/

theorem writeSrc_busy {s : State} (k : Nat) (v : Byte) (h : s.phase = .busy) :
    s.writeSrc k v = { s with ovr := true } := by
  simp [State.writeSrc, h]

theorem writeFrame_busy {s : State} (k : Nat) (v : Byte) (h : s.phase = .busy) :
    s.writeFrame k v = { s with ovr := true } := by
  simp [State.writeFrame, h]

/-- R235: while BUSY no host access changes a memory, since the byte writes are dropped and reads and
register writes never touch one. -/
theorem step_host_busy_keeps_memories {s t : State} {a : HostAccess} (hb : s.phase = .busy)
    (ha : s.hostNext a) (h : step s = .next t) : t.src = s.src ∧ t.frame = s.frame := by
  cases step_effect h with
  | skip hi => cases hb.symm.trans hi
  | failed i e hs => exact absurd ha (seq_not_host hs)
  | succeeded i fr g v r w hs => exact absurd ha (seq_not_host hs)
  | illegal hs => exact absurd ha (seq_not_host hs)
  | reset hr => exact absurd hr (host_not_reset ha)
  | read => exact ⟨rfl, rfl⟩
  | writeReg addr w r =>
    obtain ⟨-, -, -, hsrc, hframe, -⟩ := writeReg_frame r w s.popped
    exact ⟨hsrc, hframe⟩
  | writeSrc addr v k => rw [writeSrc_busy (s := s.popped) k v hb]; exact ⟨rfl, rfl⟩
  | writeFrame addr v k => rw [writeFrame_busy (s := s.popped) k v hb]; exact ⟨rfl, rfl⟩

/-! ## The obligations -/

/-- Settles O43: a byte write and a CMD write each take their BUSY branch, and every other host access is a
read or a register write. -/
theorem memoryWritesWhileBusyAreDropped : Obligations.MemoryWritesWhileBusyAreDropped := by
  refine fun s hb => ⟨fun addr v a ha hwin => ?_, fun addr w => step_writeCmd_busy hb,
    fun a t => step_host_busy_keeps_memories hb⟩
  obtain ⟨hlt, haddr⟩ | ⟨hlt, haddr⟩ := hwin
  · rw [step_write8_src ha hlt haddr, writeSrc_busy (s := s.popped) a v hb]
  · rw [step_write8_frame ha hlt haddr, writeFrame_busy (s := s.popped) a v hb]

/-- Settles O50: the reset input is the state of R46 but for the record of the outside world; the latches it
leaves are the model's own. -/
theorem resetInputPutsEveryPieceAtItsResetValue : Obligations.ResetInputPutsEveryPieceAtItsResetValue :=
  fun _ hr => ⟨Latches.reset, step_reset hr⟩

end Sys2Proof.Machine
end

section
/-! Proofs of the invariant: the reset state meets it, every step keeps it, and what is left to fault. -/

namespace Sys2Proof.Machine

/-! ## The reset state -/

/-- R46: nothing is stored and no flag is up, so every clause but the latch of DST_BASE holds outright. -/
theorem resetOf_inv (p : Params) {l : Latches} (hd : l.dstBase.toNat < p.frameSize) :
    ({ State.resetOf p with lat := l } : State).Inv where
  srcWf := rfl
  srcWithin := rfl
  frameWf := rfl
  frameWithin := rfl
  dstWithin := p.frameSize_pos
  latDstWithin := hd
  errIff := rfl
  codeLegal := Nat.zero_le 5
  causeLegal := Nat.zero_le 5
  causeFormat := fun h => absurd rfl h
  busyClear := fun hb => nomatch hb
  latLegal := fun hb => nomatch hb
  gridLoaded := fun hg => nomatch hg

/-! ## What keeps the invariant -/

/-- The invariant says nothing of the model's own record of the outside world. -/
theorem State.Inv.withRecord {s : State} (hi : s.Inv) (es : List Event) (rs : List Reply) (d : Nat) :
    ({ s with events := es, replies := rs, draws := d } : State).Inv :=
  { hi with }

theorem State.Inv.popped {s : State} (hi : s.Inv) : s.popped.Inv := hi.withRecord _ _ _

theorem CmdError.code_ne_zero (e : CmdError) : e.code ≠ 0#4 := by cases e <;> simp [CmdError.code]

theorem CmdError.code_le (e : CmdError) : e.code.toNat ≤ 5 := by cases e <;> simp [CmdError.code]

theorem CmdError.cause_le (e : CmdError) : e.cause.toNat ≤ 5 := by
  cases e with
  | format c => cases c <;> decide
  | _ => exact Nat.zero_le 5

/-- R30: only a FORMAT error has a cause. -/
theorem CmdError.code_of_cause {e : CmdError} (h : e.cause ≠ 0#4) : e.code = 1#4 := by
  cases e with
  | format c => rfl
  | _ => exact absurd rfl h

/-- The grid need not be whole where GV is cleared. -/
theorem State.Inv.lowerGv {s : State} (hi : s.Inv) {v : Bool} (hv : v = true → s.gv = true) :
    ({ s with gv := v } : State).Inv :=
  { hi with gridLoaded := fun hg => hi.gridLoaded (hv hg) }

theorem State.Inv.finish {s : State} (hi : s.Inv) : s.finish.Inv :=
  { hi with busyClear := nofun, latLegal := nofun }

theorem State.Inv.finishError {s : State} (hi : s.Inv) (e : CmdError) : (s.finishError e).Inv :=
  { hi with
    errIff := (bne_iff_ne.2 e.code_ne_zero).symm
    codeLegal := e.code_le
    causeLegal := e.cause_le
    causeFormat := e.code_of_cause
    busyClear := nofun
    latLegal := nofun }

/-- R101: the latches hold the word's fields, and DST_BASE's is FRAME_AW bits wide. -/
theorem State.Inv.accept {s : State} (hi : s.Inv) (w : Word) : (s.accept w).Inv :=
  { hi with
    latDstWithin := (dstField_toNat s).symm ▸ Nat.mod_lt _ s.params.frameSize_pos
    errIff := rfl
    codeLegal := Nat.zero_le 5
    causeLegal := Nat.zero_le 5
    causeFormat := fun h => absurd rfl h
    busyClear := fun _ => ⟨rfl, rfl⟩
    latLegal := fun _ hw => (legalWord_iff.1 hw).imp fun _ => latchesFor_word }

theorem State.Inv.writeStatus {s : State} (hi : s.Inv) (w : Word) : (s.writeReg .status w).Inv :=
  { hi with
    busyClear := fun hb => by
      obtain ⟨hdone, hcode⟩ := hi.busyClear hb
      exact ⟨by simp [State.writeReg, hdone], hcode⟩ }

/-- R35: a write of DST_BASE keeps FRAME_AW bits. -/
theorem dstBits_toNat (p : Params) (n : Nat) :
    (BitVec.ofNat 20 (n % p.frameSize)).toNat = n % p.frameSize := by
  have hmod := Nat.mod_lt n p.frameSize_pos
  rw [BitVec.toNat_ofNat, Nat.mod_eq_of_lt (hmod.trans_le p.frameSize_le)]

theorem State.Inv.writeDstBase {s : State} (hi : s.Inv) (w : Word) : (s.writeReg .dstBase w).Inv :=
  { hi with dstWithin := (dstBits_toNat s.params w.toNat).symm ▸ Nat.mod_lt _ s.params.frameSize_pos }

theorem State.Inv.writeReg {s : State} (hi : s.Inv) (r : Reg) (w : Word) : (s.writeReg r w).Inv := by
  cases r with
  | cmd =>
    cases hp : s.phase with
    | idle => rw [State.writeReg, writeCmd_idle w hp]; exact hi.accept w
    | busy => rw [State.writeReg, writeCmd_busy w hp]; exact { hi with }
  | status => exact hi.writeStatus w
  | dstBase => exact hi.writeDstBase w
  | _ => exact { hi with }

theorem writeSrc_idle {s : State} (k : Nat) (v : Byte) (h : s.phase = .idle) :
    s.writeSrc k v = { s with src := s.src.write k v } := by
  simp [State.writeSrc, h]

theorem writeFrame_idle {s : State} (k : Nat) (v : Byte) (h : s.phase = .idle) :
    s.writeFrame k v = { s with frame := s.frame.write k v } := by
  simp [State.writeFrame, h]

theorem State.Inv.writeSrc {s : State} (hi : s.Inv) {k : Nat} (hk : k < 65536) (v : Byte) :
    (s.writeSrc k v).Inv := by
  cases hp : s.phase with
  | idle =>
    rw [writeSrc_idle k v hp]
    exact { hi with
      srcWf := Memory.wf_write _ k v hi.srcWf
      srcWithin := Memory.within_write _ v hi.srcWithin hk }
  | busy => rw [writeSrc_busy k v hp]; exact { hi with }

theorem State.Inv.writeFrame {s : State} (hi : s.Inv) {k : Nat} (hk : k < s.params.frameSize) (v : Byte) :
    (s.writeFrame k v).Inv := by
  cases hp : s.phase with
  | idle =>
    rw [writeFrame_idle k v hp]
    exact { hi with
      frameWf := Memory.wf_write _ k v hi.frameWf
      frameWithin := Memory.within_write _ v hi.frameWithin hk }
  | busy => rw [writeFrame_busy k v hp]; exact { hi with }

/-! ## The obligations -/

/-- Settles O51: the model's zeros in the latches are one choice of the latches of the second part. -/
theorem resetMeetsTheInvariant : Obligations.ResetMeetsTheInvariant :=
  ⟨resetOf_inv Config.params (l := Latches.reset) Config.params.frameSize_pos, fun p _ => resetOf_inv p⟩

/-- Settles O52, effect by effect: a successful command leaves FRAME canonical because every sample write
does, and a loaded grid whole; an error completion leaves an assigned code and cause. -/
theorem everyStepKeepsTheInvariant : Obligations.EveryStepKeepsTheInvariant := by
  intro s t hi h
  cases step_effect h with
  | skip => exact hi.popped
  | failed i e =>
    have hgv : (if i = .cells then false else s.gv) = true → s.gv = true := by split <;> simp
    exact (hi.popped.lowerGv hgv).finishError e
  | succeeded i fr g v r w _ _ hF _ hkeep hload =>
    have hframe : fr.wf = true ∧ fr.within s.params.frameSize = true :=
      hF (fun fr => fr.wf = true ∧ fr.within s.params.frameSize = true) ⟨hi.frameWf, hi.frameWithin⟩
        fun fr a v ha _ ⟨hwf, hin⟩ => ⟨fr.wf_write a v hwf, fr.within_write v hin ha⟩
    have hgrid : v = true → g.length = s.params.lw * s.params.lh := fun hv => by
      by_cases hc : i = .cells
      · exact (hload hc).2
      · obtain ⟨rfl, rfl⟩ := hkeep hc
        exact hi.gridLoaded hv
    exact State.Inv.finish { hi.popped with
      frameWf := hframe.1, frameWithin := hframe.2, gridLoaded := hgrid }
  | illegal => exact hi.popped.finishError _
  | reset => exact (resetOf_inv s.params (l := Latches.reset) s.params.frameSize_pos).withRecord _ _ _
  | read => exact hi.withRecord _ _ _
  | writeReg addr w r => exact hi.popped.writeReg r w
  | writeSrc addr v k _ hk => exact hi.popped.writeSrc hk v
  | writeFrame addr v k _ hk => exact hi.popped.writeFrame (s := s.popped) hk v

/-- Settles O53: of the faults of a step, the invariant rules out the grid's by its whole grid and the
latches' by its latched command. -/
theorem onlyUnwrittenBytesFault : Obligations.OnlyUnwrittenBytesFault := by
  intro s f hi h
  obtain ⟨-, i, -, he⟩ | ⟨⟨hb, -⟩, hw, hnone, -⟩ | ⟨a, -, hf⟩ := step_fault_cases h
  · obtain hf | ⟨-, hg, hlen⟩ := exec_fault_cases he
    · exact .inl hf
    · exact absurd (hi.gridLoaded hg) hlen
  · obtain ⟨i, hd⟩ := hi.latLegal hb hw
    exact absurd hd (hnone i)
  · exact hf

end Sys2Proof.Machine
end

section
/-! Proofs of the command word's family (30_encoding.md): the full decode, and the steps that take a word to
the command it runs. -/

namespace Sys2Proof.Machine

/-! ## Rejected words -/

theorem exists_error_iff {ε α : Type} {x : Except ε α} : (∃ e, x = .error e) ↔ x.isOk = false := by
  cases x with
  | ok a => simp [Except.isOk, Except.toBool]
  | error e => simp [Except.isOk, Except.toBool]

/-- R81, R82: the fields of no command, all sixteen of them checked. -/
theorem decodeOp_error_iff {op : BitVec 3} {m : Bool} :
    (∃ e, decodeOp op m = .error e) ↔ op = 6#3 ∨ op = 7#3 ∨ (m = true ∧ op ≠ 1#3 ∧ op ≠ 2#3) := by
  rw [exists_error_iff]
  revert op m
  decide

theorem decode_error_iff {w : Word} : (∃ e, decode w = .error e) ↔
    (splitFields w).res ≠ 0#28 ∨ ∃ e, decodeOp (splitFields w).op (splitFields w).m = .error e := by
  by_cases h : (splitFields w).res = 0#28
  · simp [decode, h]
  · simp [decode, h]

/-! ## A word and its command's step -/

theorem step_latched {s : State} {i : Instr} (hs : s.SequencerTurn) (hl : s.latched i) :
    step s = exec i s.popped :=
  (step_sequencer hs).trans (runLatched_ok (s := s.popped) hl)

/-- R101, R106: the sequencer's turn right after the accept of a legal word runs its command. -/
theorem step_accepted {s : State} {w : Word} {i : Instr} {rest : List Event} (hd : decode w = .ok i)
    (he : s.events = .sequencer :: rest) : step (s.accept w) = exec i (s.accept w).popped :=
  step_latched ⟨rfl, .inr (by rw [State.accept_events, he]; rfl)⟩ (accept_latched hd)

/-! ## The obligations -/

/-- Settles O1, each word by the decoder's own evaluation. -/
theorem tableWordsDecodeToTheirCommands : Obligations.TableWordsDecodeToTheirCommands := by
  unfold Obligations.TableWordsDecodeToTheirCommands
  decide

/-- Settles O2: the fields of each command are well formed, and a word decodes to the command it encodes. -/
theorem decodingAnEncodedInstructionGivesItBack : Obligations.DecodingAnEncodedInstructionGivesItBack := by
  refine fun i => ⟨?_, decode_ok_iff.2 rfl⟩
  cases i <;> decide

/-- Settles O3: a word decodes to a command exactly when it is that command's word, and what no command has
as fields is rejected. -/
theorem decodeIsExactlyTheFullDecodeTable : Obligations.DecodeIsExactlyTheFullDecodeTable := fun _ =>
  ⟨decode_ok_iff, decode_ok_iff, decode_ok_iff, decode_ok_iff, decode_ok_iff, decode_ok_iff, decode_ok_iff,
    decode_ok_iff, decode_error_iff.trans (or_congr_right decodeOp_error_iff)⟩

/-- Settles O4: the turn runs the latches, which hold the command. -/
theorem stepRunsTheLatchedCommand : Obligations.StepRunsTheLatchedCommand := fun _ _ => step_latched

/-- Settles O5: a placed word stands accepted with the sequencer's turn next. -/
theorem placedWordIsRunByTheNextStep : Obligations.PlacedWordIsRunByTheNextStep := by
  intro s w i hd
  have hw : BitVec.ofNat 32 (w.toNat % 2 ^ 32) = w := by
    rw [Nat.mod_eq_of_lt w.isLt, BitVec.ofNat_toNat, BitVec.setWidth_eq]
  rw [State.withFetchWord, hw]
  exact step_accepted (s := { s with events := .sequencer :: s.events }) hd rfl

/-- Settles O6: the first step is the accept, the second the turn of the accepted command. -/
theorem commandWriteThenSequencerTurnRunsIt : Obligations.CommandWriteThenSequencerTurnRunsIt := by
  intro s w i addr rest hp h0 hd he
  have ha : s.hostNext (.write32 addr w) := by rw [State.hostNext, he]; rfl
  have hpop : s.popped = { s with events := .sequencer :: rest } := by rw [State.popped, he]; rfl
  rw [run_succ (step_writeCmd_idle hp ha h0), run_one, hpop, step_accepted hd rfl]
  rfl

end Sys2Proof.Machine
end

section
/-! Proofs of the bit-plane unpacker's family (41_bitplane_unpacker.md), part two: PLANE and PLANE.M. -/

namespace Sys2Proof.Machine

/-! ## An error completion -/

theorem complete_of_error {r : CmdResult} {e : CmdError} {s : State} (h : r = .error e s) :
    complete r = .next (s.failed e.code e.cause) := by
  rw [h]
  rfl

/-- R63: the declared buffer ends within SRC. -/
theorem pastSrc_eq_false {s : State} (h : s.bufStart + s.bufLen ≤ 65536) : s.pastSrc = false :=
  decide_eq_false (Nat.not_lt.2 h)

theorem pastSrc_eq_true {s : State} (h : s.bufStart + s.bufLen > 65536) : s.pastSrc = true :=
  decide_eq_true h

/-! ## PLANE by its checks -/

theorem exec_planeInstr (m : Bool) (s : State) : exec (planeInstr m) s = complete (plane m s) := by
  cases m <;> rfl

section Checks

variable {m : Bool} {s : State}

theorem plane_range (hr : s.bufStart + s.bufLen > 65536) : plane m s = .error .range s := by
  simp [plane, pastSrc_eq_true hr]

variable (hr : s.bufStart + s.bufLen ≤ 65536)
include hr

theorem plane_zeroDim (hz : s.planeW = 0 ∨ s.planeH = 0) : plane m s = .error (.format .zeroDim) s := by
  simp [plane, pastSrc_eq_false hr, hz]

theorem plane_heightNotMult8 (hW : s.planeW ≠ 0) (h8 : s.planeH % 8 ≠ 0) :
    plane m s = .error (.format .heightNotMult8) s := by
  have hH : s.planeH ≠ 0 := fun h => h8 (by rw [h])
  simp [plane, pastSrc_eq_false hr, hW, hH, h8]

variable (hW : s.planeW ≠ 0) (hH : s.planeH ≠ 0) (h8 : s.planeH % 8 = 0)
include hW hH h8

theorem plane_truncated (hlen : s.planeW * s.planeH / 8 > s.bufLen) :
    plane m s = .error (.format .truncated) s := by
  simp [plane, pastSrc_eq_false hr, hW, hH, h8, hlen]

variable (hlen : s.planeW * s.planeH / 8 ≤ s.bufLen)
include hlen

theorem plane_capacity (hcap : s.outStart + s.planeW * s.planeH > s.params.frameSize) :
    plane m s = .error .capacity s := by
  simp [plane, pastSrc_eq_false hr, hW, hH, h8, Nat.not_lt.2 hlen, hcap]

variable (hcap : s.outStart + s.planeW * s.planeH ≤ s.params.frameSize)
include hcap

/-- The five checks of R123 passed, PLANE ends as its unpacking does. -/
theorem plane_of_unpack {fr : Memory}
    (h : unpack s 0 s.planeW s.planeH m s.outStart s.frame = .ok fr) :
    plane m s = .ok { s with frame := fr, result := BitVec.ofNat 32 (s.planeW * s.planeH) } := by
  simp [plane, pastSrc_eq_false hr, hW, hH, h8, Nat.not_lt.2 hlen, Nat.not_lt.2 hcap, h]

theorem plane_of_unpack_fault {f : Fault}
    (h : unpack s 0 s.planeW s.planeH m s.outStart s.frame = .error f) : plane m s = .fault f := by
  simp [plane, pastSrc_eq_false hr, hW, hH, h8, Nat.not_lt.2 hlen, Nat.not_lt.2 hcap, h]

end Checks

/-! ## The obligations -/

/-- Settles O12: the checks passed, FRAME is what `unpack` leaves, whose closed form at pixel offset y*W + x is
R124's; completion adds nothing to error fields that are clear while BUSY. -/
theorem planeWritesTheUnpackedFrame : Obligations.PlaneWritesTheUnpackedFrame := by
  rintro m s _ _ hi hb rfl rfl hr hW hH h8 hlen hcap hsrc
  obtain ⟨byte, hbyte⟩ := hsrc.exists_bytes
  have hbuf : ∀ k, k < s.planeW * s.planeH / 8 → s.buf (0 + k) = .ok (byte k) := fun k hk =>
    State.buf_eq_ok.2 (by rw [Nat.zero_add]; exact hbyte k hk)
  obtain ⟨fr, hfr, hin, hout⟩ := unpack_spec (m := m) (d0 := s.outStart) (fr0 := s.frame) h8 hbuf
  refine ⟨fr, ?_, fun x y hx hy => ⟨_, hbyte _ ?_, ?_⟩, hout⟩
  · obtain ⟨herr, hcode, hcause, -⟩ := hi.clear hb
    rw [exec_planeInstr, plane_of_unpack hr hW hH h8 hlen hcap hfr]
    simp [complete, State.finish, herr, hcode, hcause, State.planeW, State.planeH]
  · exact packed_index_lt hx (by omega) h8
  · simpa only [pixel_row y hx, Nat.mul_add_mod_of_lt hx, Nat.add_assoc, State.outStart, State.planeW, unpack8]
      using hin (y * s.planeW + x) (pixel_lt hx hy)

/-- Settles O13: in each clause the earlier checks pass and the next one decides. -/
theorem planeReportsItsFirstFailedCheck : Obligations.PlaneReportsItsFirstFailedCheck := by
  rintro m s _ _ _ rfl rfl rfl
  rw [exec_planeInstr]
  exact ⟨fun hr => complete_of_error (plane_range hr),
    fun hr hz => complete_of_error (plane_zeroDim hr hz),
    fun hr hW h8 => complete_of_error (plane_heightNotMult8 hr hW h8),
    fun hr hW hH h8 hlen => complete_of_error (plane_truncated hr hW hH h8 hlen),
    fun hr hW hH h8 hlen hcap => complete_of_error (plane_capacity hr hW hH h8 hlen hcap)⟩

/-- Settles O14: the unwritten byte makes a pass of `unpack` fault, and an unwritten SRC byte is its only
fault; a frame with a byte has no zero dimension. -/
theorem planeFaultsOnAnUnwrittenByte : Obligations.PlaneFaultsOnAnUnwrittenByte := by
  rintro m s _ _ k rfl rfl hr h8 hlen hcap hk hnone
  have hW : s.planeW ≠ 0 := fun h => by simp [show s.lat.width.toNat = 0 from h] at hk
  have hH : s.planeH ≠ 0 := fun h => by simp [show s.lat.height.toNat = 0 from h] at hk
  have hbad : s.buf (0 + k) = .error .srcByteNoValue := State.buf_eq_error.2 (by rw [Nat.zero_add]; exact hnone)
  obtain ⟨f, hf⟩ := unpack_fails (m := m) (d0 := s.outStart) h8 hk hbad s.frame
  rw [exec_planeInstr, plane_of_unpack_fault hr hW hH h8 hlen hcap hf, unpack_error hf, complete]

end Sys2Proof.Machine
end

section
/-! Proofs of the sprite decoder's family (42_sprite_decoder.md), part two: the checks and the faults of SPRITE
and SPRITE.M. -/

namespace Sys2Proof.Machine

/-! ## SPRITE before its header is read -/

theorem sprite_range {m : Bool} {s : State} (hr : s.bufStart + s.bufLen > 65536) :
    sprite m s = .error .range s := by
  simp [sprite, pastSrc_eq_true hr]

theorem sprite_shortHeader {m : Bool} {s : State} (hr : s.bufStart + s.bufLen ≤ 65536) (hl : s.bufLen < 2) :
    sprite m s = .error (.format .shortHeader) s := by
  simp [sprite, pastSrc_eq_false hr, hl]

/-- R67: a header byte without a value is the fault of reading it. -/
theorem sprite_header_fault {m : Bool} {s : State} (hr : s.bufStart + s.bufLen ≤ 65536) (hl : 2 ≤ s.bufLen)
    (h : s.buf 0 = .error .srcByteNoValue ∨ s.buf 1 = .error .srcByteNoValue) :
    sprite m s = .fault .srcByteNoValue := by
  simp only [sprite, pastSrc_eq_false hr, Bool.false_eq_true, Nat.not_lt.2 hl, if_false]
  cases h0 : s.buf 0 with
  | error f => simp [State.buf_error h0]
  | ok w =>
    cases h1 : s.buf 1 with
    | error f => simp [State.buf_error h1]
    | ok v => simp [h0, h1] at h

/-! ## SPRITE by the checks after its header -/

section Checks

variable {m : Bool} {s : State} {W H : Nat}

theorem spriteBody_zeroDim (hz : W = 0 ∨ H = 0) : spriteBody m W H s = .error (.format .zeroDim) s := by
  simp [spriteBody, hz]

variable (hW : W ≠ 0)
include hW

theorem spriteBody_heightNotMult8 (h8 : H % 8 ≠ 0) :
    spriteBody m W H s = .error (.format .heightNotMult8) s := by
  have hH : H ≠ 0 := fun h => h8 (by rw [h])
  simp [spriteBody, hW, hH, h8]

variable (hH : H ≠ 0) (h8 : H % 8 = 0)
include hH h8

theorem spriteBody_nonintegralFrames (hn : (s.bufLen - 2) % frameBytes W H ≠ 0) :
    spriteBody m W H s = .error (.format .nonintegralFrames) s := by
  simp [spriteBody, hW, hH, h8, hn]

theorem spriteBody_capacity (hn : (s.bufLen - 2) % frameBytes W H = 0)
    (hcap : s.outStart + s.frameCount W H * W * H > s.params.frameSize) :
    spriteBody m W H s = .error .capacity s := by
  simp [spriteBody, hW, hH, h8, hn, hcap]

theorem frameBytes_pos : 0 < frameBytes W H :=
  Nat.zero_lt_of_lt (packed_index_lt (r := 0) (Nat.pos_of_ne_zero hW) (by omega) h8)

theorem spriteBody_of_fault {n : Nat} {f : Fault} (hn : s.bufLen - 2 = n * frameBytes W H)
    (hcap : s.outStart + n * W * H ≤ s.params.frameSize) (hf : unpackFrames s n W H m = .error f) :
    spriteBody m W H s = .fault f := by
  have count : s.frameCount W H = n := frameCount_eq (frameBytes_pos hW hH h8) hn
  have whole : (s.bufLen - 2) % frameBytes W H = 0 := by rw [hn, Nat.mul_mod_left]
  simp [spriteBody, hW, hH, h8, whole, count, Nat.not_lt.2 hcap, hf]

end Checks

/-! ## The obligations -/

/-- Settles O16: in each clause the earlier checks pass and the next one decides. -/
theorem spriteReportsItsFirstFailedCheck : Obligations.SpriteReportsItsFirstFailedCheck := by
  rintro m s _ _ rfl rfl
  rw [exec_spriteInstr]
  refine ⟨fun hr => complete_of_error (sprite_range hr),
    fun hr hl => complete_of_error (sprite_shortHeader hr hl), ?_⟩
  rintro w h _ _ _ hr hl hw hh rfl rfl rfl
  rw [sprite_of_header hr hl (State.buf_eq_ok.2 hw) (State.buf_eq_ok.2 hh)]
  exact ⟨fun hz => complete_of_error (spriteBody_zeroDim hz),
    fun hW h8 => complete_of_error (spriteBody_heightNotMult8 hW h8),
    fun hW hH h8 hn => complete_of_error (spriteBody_nonintegralFrames hW hH h8 hn),
    fun hW hH h8 hn hcap => complete_of_error (spriteBody_capacity hW hH h8 hn hcap)⟩

/-- Settles O17: an unwritten header byte is a fault of its read, an unwritten frame byte one of the loop, and
either is an unwritten SRC byte. -/
theorem spriteFaultsOnAnUnwrittenByte : Obligations.SpriteFaultsOnAnUnwrittenByte := by
  rintro m s _ _ rfl rfl hr hl
  rw [exec_spriteInstr]
  refine ⟨fun hnone => ?_, ?_⟩
  · rw [sprite_header_fault hr hl (hnone.imp State.buf_eq_error.2 State.buf_eq_error.2), complete]
  · rintro w h _ _ n k hw hh rfl rfl hW hH h8 hn hcap hk hnone
    have hbad : s.buf (2 + k) = .error .srcByteNoValue :=
      State.buf_eq_error.2 (by rw [← Nat.add_assoc]; exact hnone)
    obtain ⟨f, hf⟩ := unpackFrames_fails (m := m) h8 hk hbad
    rw [sprite_of_header hr hl (State.buf_eq_ok.2 hw) (State.buf_eq_ok.2 hh),
      spriteBody_of_fault hW hH h8 hn hcap hf, unpackFrames_error hf, complete]

end Sys2Proof.Machine
end

section
/-! Proofs of the auto-tiler's family (43_tilemap_auto_tiler.md), part two: CELLS. -/

namespace Sys2Proof.Machine

/-! ## CELLS by its checks -/

section Checks

variable {s : State}

theorem cells_range (hr : s.bufStart + s.bufLen > 65536) :
    cells s = .error .range { s with gv := false } := by
  simp [cells, pastSrc_eq_true hr]

variable (hr : s.bufStart + s.bufLen ≤ 65536)
include hr

theorem cells_truncated (hlen : s.bufLen < s.params.lcb) :
    cells s = .error (.format .truncated) { s with gv := false } := by
  simp [cells, pastSrc_eq_false hr, hlen]

variable (hlen : s.params.lcb ≤ s.bufLen)
include hlen

/-- The two checks of R161 passed, CELLS ends as its loop does. -/
theorem cells_of_load {g : List Bool} (h : loadCells s = .ok g) :
    cells s =
      .ok { s with grid := g, gv := true, result := BitVec.ofNat 32 (s.bufStart + s.params.lcb) } := by
  simp [cells, pastSrc_eq_false hr, Nat.not_lt.2 hlen, h]

theorem cells_of_load_fault {f : Fault} (h : loadCells s = .error f) : cells s = .fault f := by
  simp [cells, pastSrc_eq_false hr, Nat.not_lt.2 hlen, h]

end Checks

theorem exec_cells (s : State) : exec .cells s = complete (cells s) := rfl

/-! ## The obligations -/

/-- Settles O18: the checks passed, GRID is what `loadCells` leaves, whose cell y*LW + x is R160's bit. -/
theorem cellsLoadsEveryCellOfTheGrid : Obligations.CellsLoadsEveryCellOfTheGrid := by
  rintro s _ _ hi hb rfl rfl hr hlen hsrc
  rw [← s.params.lcb_eq] at hlen hsrc ⊢
  obtain ⟨byte, hbyte⟩ := hsrc.exists_bytes
  obtain ⟨g, hg, hlength, hcell⟩ := loadCells_spec fun k hk => State.buf_eq_ok.2 (hbyte k hk)
  refine ⟨g, ?_, hlength, fun x y hx hy => ⟨_, hbyte _ ?_, ?_⟩⟩
  · obtain ⟨herr, hcode, hcause, -⟩ := hi.clear hb
    rw [exec_cells, cells_of_load hr hlen hg]
    simp [complete, State.finish, herr, hcode, hcause, State.bufStart]
  · exact s.params.cell_byte_lt (pixel_lt hx hy)
  · exact hcell _ (pixel_lt hx hy)

/-- Settles O19: RANGE, then TRUNCATED, each with GV cleared, and then an unwritten byte, which makes a pass of
the loop fault. -/
theorem cellsReportsItsFirstFailedCheckOrFaults : Obligations.CellsReportsItsFirstFailedCheckOrFaults := by
  rintro s _ _ _ rfl rfl rfl
  rw [← s.params.lcb_eq, exec_cells]
  refine ⟨fun hr => complete_of_error (cells_range hr), fun hr hlen => complete_of_error (cells_truncated hr hlen),
    fun k hr hlen hk hnone => ?_⟩
  obtain ⟨f, hf⟩ := loadCells_fails hk (State.buf_eq_error.2 hnone)
  rw [cells_of_load_fault hr hlen hf, loadCells_error hf, complete]

end Sys2Proof.Machine
end

section
/-! Proofs over every command and every step: completions, the error fields, the latches, GRID and the
memories' writers (10_state.md, 20_memory.md, 40_command_sequencer.md, 60_exceptions.md). -/

namespace Sys2Proof.Machine

/-! ## The sequencer's turn -/

/-- Everything the sequencer's turn can leave: an error completion, of a legal word or of an illegal one, or
what a legal command writes when it succeeds. -/
inductive TurnEffect (s : State) : State → Prop where
  | failed (e : CmdError) (v : Bool) : (s.latched .cells → v = false) → (¬s.latched .cells → v = s.gv) →
      TurnEffect s (State.finishError e { s.popped with gv := v })
  | succeeded (i : Instr) (fr : Memory) (g : List Bool) (v : Bool) (r w : Word) : s.latched i →
      (i ≠ .cells → g = s.grid ∧ v = s.gv) →
      (i = .cells → v = true ∧ g.length = s.params.lw * s.params.lh) →
      TurnEffect s (State.finish
        { s.popped with frame := fr, grid := g, gv := v, result := r, sprInfo := w })

theorem turn_effect {s t : State} (hs : s.SequencerTurn) (h : step s = .next t) : TurnEffect s t := by
  cases step_effect h with
  | skip hi => cases hs.1.symm.trans hi
  | failed i e _ hl =>
    refine .failed e _ (fun hc => if_pos (latched_inj hl hc)) fun hc => if_neg fun hi : i = .cells => hc (hi ▸ hl)
  | succeeded i fr g v r w _ hl _ _ hkeep hload => exact .succeeded i fr g v r w hl hkeep hload
  | illegal _ hw => exact .failed .illegal s.gv (fun hc => nomatch hw.symm.trans hc.1) fun _ => rfl
  | reset hr => exact absurd hr (seq_not_reset hs)
  | read _ _ _ ha => exact absurd ha (seq_not_host hs)
  | writeReg _ _ _ ha => exact absurd ha (seq_not_host hs)
  | writeSrc _ _ _ ha => exact absurd ha (seq_not_host hs)
  | writeFrame _ _ _ ha => exact absurd ha (seq_not_host hs)

/-- R31, R43: a host access leaves GV and GRID alone. -/
theorem step_host_keeps_grid {s t : State} {a : HostAccess} (ha : s.hostNext a) (h : step s = .next t) :
    t.gv = s.gv ∧ t.grid = s.grid := by
  rw [step_host ha] at h
  obtain ⟨-, r, d, rfl⟩ | ⟨addr, w, r, -, -, rfl⟩ | ⟨addr, v, k, -, -, -, rfl⟩ | ⟨addr, v, k, -, -, -, rfl⟩ :=
    busAccess_next_cases h
  · exact ⟨rfl, rfl⟩
  · obtain ⟨hgv, hgrid, -⟩ := writeReg_frame r w s.popped
    exact ⟨hgv, hgrid⟩
  · rw [writeSrc_eq]; exact ⟨rfl, rfl⟩
  · rw [writeFrame_eq]; exact ⟨rfl, rfl⟩

/-! ## What a register write leaves -/

/-- R205: of the register writes only an accept touches the error fields. -/
theorem writeReg_keeps_errors {r : Reg} {w : Word} {s : State} (hc : r = .cmd → s.phase = .busy) :
    (s.writeReg r w).err = s.err ∧ (s.writeReg r w).errCode = s.errCode ∧
      (s.writeReg r w).fmtCause = s.fmtCause := by
  cases r with
  | cmd => rw [State.writeReg, writeCmd_busy w (hc rfl)]; exact ⟨rfl, rfl, rfl⟩
  | _ => exact ⟨rfl, rfl, rfl⟩

/-- R44: a register write that changes the latches is an accept. -/
theorem writeReg_lat_changed {r : Reg} {w : Word} {s : State} (h : (s.writeReg r w).lat ≠ s.lat) :
    r = .cmd ∧ s.phase = .idle := by
  by_cases hr : r = .cmd
  · refine ⟨hr, ?_⟩
    cases hp : s.phase with
    | idle => rfl
    | busy => rw [hr, State.writeReg, writeCmd_busy w hp] at h; exact absurd rfl h
  · exact absurd (writeReg_lat r w s hr) h

/-! ## The writers of the memories and of GRID -/

/-- R61: a SRC byte that a step other than reset changes is the byte the host writes while IDLE. -/
theorem step_src_changed {s t : State} (h : step s = .next t) (hr : s.events.head? ≠ some .reset) {a : Nat}
    (hne : t.src.read a ≠ s.src.read a) : s.phase = .idle ∧ ∃ addr v,
      s.hostNext (.write8 addr v) ∧ addr.toNat = 0x010000 + a ∧ t.src.read a = some v := by
  cases step_effect h with
  | reset he => exact absurd he hr
  | writeReg addr w r =>
    obtain ⟨-, -, -, hsrc, -, -⟩ := writeReg_frame r w s.popped
    exact absurd (congrArg (Memory.read · a) hsrc) hne
  | writeSrc addr v k ha _ haddr =>
    cases hp : s.phase with
    | busy => rw [writeSrc_busy (s := s.popped) k v hp] at hne; exact absurd rfl hne
    | idle =>
      rw [writeSrc_idle (s := s.popped) k v hp] at hne ⊢
      obtain rfl : a = k := by_contra fun hak => hne (Memory.read_write_other _ v hak)
      exact ⟨rfl, addr, v, ha, haddr, Memory.read_write_same _ a v⟩
  | writeFrame addr v k => rw [writeFrame_eq] at hne; exact absurd rfl hne
  | _ => exact absurd rfl hne

/-- R62: a FRAME byte that a step other than reset changes is the byte the host writes while IDLE, or a PLANE
or SPRITE completes. -/
theorem step_frame_changed {s t : State} (h : step s = .next t) (hr : s.events.head? ≠ some .reset) {a : Nat}
    (hne : t.frame.read a ≠ s.frame.read a) :
    (s.phase = .idle ∧ ∃ addr v,
      s.hostNext (.write8 addr v) ∧ addr.toNat = 0x100000 + a ∧ t.frame.read a = some v) ∨
    (s.SequencerTurn ∧ ∃ i, s.latched i ∧ i.writesFrame) := by
  cases step_effect h with
  | reset he => exact absurd he hr
  | succeeded i fr g v r w hs hl _ hkeep =>
    exact .inr ⟨hs, i, hl, by_contra fun hi => hne (congrArg (Memory.read · a) (hkeep hi))⟩
  | writeReg addr w r =>
    obtain ⟨-, -, -, -, hframe, -⟩ := writeReg_frame r w s.popped
    exact absurd (congrArg (Memory.read · a) hframe) hne
  | writeSrc addr v k => rw [writeSrc_eq] at hne; exact absurd rfl hne
  | writeFrame addr v k ha _ haddr =>
    cases hp : s.phase with
    | busy => rw [writeFrame_busy (s := s.popped) k v hp] at hne; exact absurd rfl hne
    | idle =>
      rw [writeFrame_idle (s := s.popped) k v hp] at hne ⊢
      obtain rfl : a = k := by_contra fun hak => hne (Memory.read_write_other _ v hak)
      exact .inl ⟨rfl, addr, v, ha, haddr, Memory.read_write_same _ a v⟩
  | _ => exact absurd rfl hne

/-- R43: a step other than reset that changes GRID is a CELLS that succeeds. -/
theorem step_grid_changed {s t : State} (h : step s = .next t) (hr : s.events.head? ≠ some .reset)
    (hne : t.grid ≠ s.grid) : s.SequencerTurn ∧ s.latched .cells ∧ t.gv = true := by
  cases step_effect h with
  | reset he => exact absurd he hr
  | succeeded i fr g v r w hs hl _ _ hkeep hload =>
    obtain rfl : i = .cells := by_contra fun hi => hne (hkeep hi).1
    exact ⟨hs, hl, (hload rfl).1⟩
  | writeReg addr w r ha => exact absurd (step_host_keeps_grid ha h).2 hne
  | writeSrc addr v k ha => exact absurd (step_host_keeps_grid ha h).2 hne
  | writeFrame addr v k ha => exact absurd (step_host_keeps_grid ha h).2 hne
  | _ => exact absurd rfl hne

/-! ## The obligations over the sequencer's turn -/

/-- Settles O25: success would have left ERRCODE at 0, and an error completion is `State.finishError`. -/
theorem errorCompletionChangesOnlyStatus : Obligations.ErrorCompletionChangesOnlyStatus := by
  intro s t hs h0 h hne
  cases turn_effect hs h with
  | failed e v hclear hkeep =>
    refine ⟨fun hc => ?_, fun hc => ?_⟩
    · rw [hclear hc]; rfl
    · rw [hkeep hc]; rfl
  | succeeded => exact absurd h0 hne

/-- Settles O26: both completions keep what the host holds; the invariant's clear error fields are the
success's, and an error's code is not 0. -/
theorem completionKeepsTheHostsRegisters : Obligations.CompletionKeepsTheHostsRegisters := by
  intro s t hi hs h
  obtain ⟨herr, hcode, hcause, -⟩ := hi.clear hs.1
  cases turn_effect hs h with
  | failed e v =>
    exact ⟨rfl, rfl, fun hen => irq_eq_true_iff.2 ⟨hen, rfl⟩, rfl, rfl, rfl, rfl, rfl, rfl, rfl, rfl, rfl, rfl,
      rfl, fun h => absurd h e.code_ne_zero, fun _ => ⟨rfl, rfl, rfl⟩⟩
  | succeeded =>
    exact ⟨rfl, rfl, fun hen => irq_eq_true_iff.2 ⟨hen, rfl⟩, rfl, rfl, rfl, rfl, rfl, rfl, rfl, rfl, rfl, rfl,
      rfl, fun _ => ⟨herr, hcause⟩, fun h => absurd hcode h⟩

/-- Settles O29: CELLS loads GRID where it succeeds and clears GV where it does not, and neither another command
nor a host access touches them. -/
theorem gridValidFollowsTheLastCells : Obligations.GridValidFollowsTheLastCells := by
  refine ⟨fun s t hs h0 h => ?_, fun s t a => step_host_keeps_grid, fun s t hr h => ?_,
    fun s hgv => ⟨exec_solid_of_no_grid hgv, exec_tile_of_no_grid hgv⟩⟩
  · cases turn_effect hs h with
    | failed e v hclear hkeep =>
      refine ⟨fun hc => ?_, fun hc => ⟨hkeep hc, rfl⟩⟩
      obtain rfl := hclear hc
      exact ⟨iff_of_false Bool.false_ne_true e.code_ne_zero, nofun⟩
    | succeeded i fr g v r w hl hkeep hload =>
      refine ⟨fun hc => ?_, fun hc => (hkeep fun hi => hc (hi ▸ hl)).symm⟩
      obtain ⟨rfl, hlen⟩ := hload (latched_inj hl hc)
      exact ⟨iff_of_true rfl h0, fun _ => hlen⟩
  · cases (step_reset hr).symm.trans h
    rfl

/-! ## The obligations over every step -/

/-- Settles O30: a command that is no SPRITE keeps SPR_INFO, and so does every error and every host access; the
invariant's ERR = 0 is the success's. -/
theorem onlyASuccessfulSpriteWritesSprInfo : Obligations.OnlyASuccessfulSpriteWritesSprInfo := by
  intro s t hi h hne
  cases step_effect h with
  | reset hr => exact .inl ⟨hr, rfl⟩
  | succeeded i fr g v r w hs hl _ _ _ _ hkeep =>
    have hinfo : i.writesInfo := by_contra fun hi => hne (hkeep hi)
    refine .inr ⟨hs, ?_, (hi.clear hs.1).1⟩
    obtain rfl | rfl := hinfo
    · exact .inl hl
    · exact .inr hl
  | writeReg addr w r =>
    obtain ⟨-, -, hinfo, -⟩ := writeReg_frame r w s.popped
    exact absurd hinfo hne
  | writeSrc addr v k => rw [writeSrc_eq] at hne; exact absurd rfl hne
  | writeFrame addr v k => rw [writeFrame_eq] at hne; exact absurd rfl hne
  | _ => exact absurd rfl hne

/-- Settles O31: outside the sequencer's turn, reset and an accept no effect of a step touches the error
fields. -/
theorem errorFieldsStayUntilTheNextAccept : Obligations.ErrorFieldsStayUntilTheNextAccept := by
  intro s t h hs hr haccept
  cases step_effect h with
  | failed i e ht => exact absurd ht hs
  | succeeded i fr g v r w ht => exact absurd ht hs
  | illegal ht => exact absurd ht hs
  | reset he => exact absurd he hr
  | writeReg addr w r ha hreg =>
    refine writeReg_keeps_errors fun hc => ?_
    cases hp : s.phase with
    | busy => exact hp
    | idle => exact absurd ⟨by rw [hreg, hc]; rfl, hp⟩ (haccept addr w ha)
  | writeSrc addr v k => rw [writeSrc_eq]; exact ⟨rfl, rfl, rfl⟩
  | writeFrame addr v k => rw [writeFrame_eq]; exact ⟨rfl, rfl, rfl⟩
  | _ => exact ⟨rfl, rfl, rfl⟩

/-- Settles O33, one memory at a time. -/
theorem eachMemoryHasItsOwnWriters : Obligations.EachMemoryHasItsOwnWriters := fun _ _ h hr =>
  ⟨fun _ => step_src_changed h hr, fun _ => step_frame_changed h hr, step_grid_changed h hr⟩

/-- Settles O35: of the effects of a step only an accept writes the latches, and it writes them as R101
says. -/
theorem latchesChangeOnlyAtAccept : Obligations.LatchesChangeOnlyAtAccept := by
  intro s t h hr hne
  cases step_effect h with
  | reset he => exact absurd he hr
  | writeReg addr w r ha hreg =>
    obtain ⟨rfl, hp⟩ := writeReg_lat_changed hne
    rw [State.writeReg, writeCmd_idle w hp]
    exact ⟨hp, rfl, addr, w, ha, hreg, rfl, rfl, rfl, rfl, dstField_toNat s.popped, rfl, rfl, rfl, rfl⟩
  | writeSrc addr v k => rw [writeSrc_eq] at hne; exact absurd rfl hne
  | writeFrame addr v k => rw [writeFrame_eq] at hne; exact absurd rfl hne
  | _ => exact absurd rfl hne

end Sys2Proof.Machine
end

section
/-! Proofs of the latches' family (10_state.md R44): what a command computes does not depend on what the host
holds in the operand registers. -/

namespace Sys2Proof.Machine

/-! ## Other host registers -/

/-- `s` with the operand registers, CTRL and OVR of `host`. -/
def State.withHost (host s : State) : State :=
  { s with
    srcLen := host.srcLen, srcBase := host.srcBase, dstBase := host.dstBase, width := host.width, height := host.height,
    qx := host.qx, qy := host.qy, irqEn := host.irqEn, ovr := host.ovr }

def CmdResult.map (f : State → State) : CmdResult → CmdResult
  | .ok s      => .ok (f s)
  | .error e s => .error e (f s)
  | .fault f   => .fault f

theorem ite_eq_map {f : State → State} {c c' : Prop} [Decidable c] [Decidable c'] {a b a' b' : CmdResult}
    (hc : c' ↔ c) (ha : a' = a.map f) (hb : b' = b.map f) :
    (if c' then a' else b') = (if c then a else b).map f := by
  by_cases h : c
  · rw [if_pos (hc.2 h), if_pos h, ha]
  · rw [if_neg (mt hc.1 h), if_neg h, hb]

/-! ## Each command with other host registers -/

section Commands

variable (host s : State)

theorem unpack_withHost (m : Bool) :
    unpack (host.withHost s) 0 (host.withHost s).planeW (host.withHost s).planeH m (host.withHost s).outStart
      (host.withHost s).frame = unpack s 0 s.planeW s.planeH m s.outStart s.frame := rfl

theorem plane_withHost (m : Bool) : plane m (host.withHost s) = (plane m s).map host.withHost := by
  refine ite_eq_map .rfl rfl <| ite_eq_map .rfl rfl <| ite_eq_map .rfl rfl <| ite_eq_map .rfl rfl <|
    ite_eq_map .rfl rfl ?_
  rw [unpack_withHost]
  split <;> rfl

theorem unpackFrames_withHost (m : Bool) (W H : Nat) :
    unpackFrames (host.withHost s) ((host.withHost s).frameCount W H) W H m =
      unpackFrames s (s.frameCount W H) W H m := rfl

theorem spriteBody_withHost (m : Bool) (W H : Nat) :
    spriteBody m W H (host.withHost s) = (spriteBody m W H s).map host.withHost := by
  refine ite_eq_map .rfl rfl <| ite_eq_map .rfl rfl <| ite_eq_map .rfl rfl <| ite_eq_map .rfl rfl ?_
  rw [unpackFrames_withHost]
  split <;> rfl

theorem buf_withHost (k : Nat) : (host.withHost s).buf k = s.buf k := rfl

theorem sprite_withHost (m : Bool) : sprite m (host.withHost s) = (sprite m s).map host.withHost := by
  refine ite_eq_map .rfl rfl <| ite_eq_map .rfl rfl ?_
  simp only [buf_withHost, spriteBody_withHost]
  split <;> rfl

theorem loadCells_withHost : loadCells (host.withHost s) = loadCells s := rfl

theorem cells_withHost : cells (host.withHost s) = (cells s).map host.withHost := by
  refine ite_eq_map .rfl rfl <| ite_eq_map .rfl rfl ?_
  rw [loadCells_withHost]
  split <;> rfl

theorem solidAt_withHost :
    solidAt (host.withHost s).params (host.withHost s).grid (host.withHost s).queryX (host.withHost s).queryY =
      solidAt s.params s.grid s.queryX s.queryY := rfl

theorem solid_withHost : solid (host.withHost s) = (solid s).map host.withHost := by
  refine ite_eq_map .rfl ?_ rfl
  rw [solidAt_withHost]
  split <;> rfl

theorem tileIndexAt_withHost :
    tileIndexAt (host.withHost s).params (host.withHost s).grid (host.withHost s).queryX (host.withHost s).queryY =
      tileIndexAt s.params s.grid s.queryX s.queryY := rfl

theorem tile_withHost : tile (host.withHost s) = (tile s).map host.withHost := by
  refine ite_eq_map .rfl ?_ rfl
  rw [tileIndexAt_withHost]
  split <;> rfl

theorem cmdResult_withHost (i : Instr) : cmdResult i (host.withHost s) = (cmdResult i s).map host.withHost := by
  cases i with
  | nop => rfl
  | plane => exact plane_withHost host s false
  | planeM => exact plane_withHost host s true
  | sprite => exact sprite_withHost host s false
  | spriteM => exact sprite_withHost host s true
  | cells => exact cells_withHost host s
  | solid => exact solid_withHost host s
  | tile => exact tile_withHost host s

end Commands

/-- R103: a completion writes none of the host's registers. -/
theorem complete_map_withHost (host : State) (r : CmdResult) :
    (∀ t, complete r = .next t → complete (r.map host.withHost) = .next (host.withHost t)) ∧
    (∀ f, complete r = .fault f → complete (r.map host.withHost) = .fault f) := by
  cases r with
  | ok u =>
    refine ⟨fun t ht => ?_, fun f hf => ?_⟩
    · cases ht; rfl
    · cases hf
  | error e u =>
    refine ⟨fun t ht => ?_, fun f hf => ?_⟩
    · cases ht; rfl
    · cases hf
  | fault g =>
    refine ⟨fun t ht => ?_, fun f hf => ?_⟩
    · cases ht
    · cases hf; rfl

theorem exec_withHost (i : Instr) (s host : State) :
    (∀ t, exec i s = .next t → exec i (host.withHost s) = .next (host.withHost t)) ∧
    (∀ f, exec i s = .fault f → exec i (host.withHost s) = .fault f) := by
  rw [exec_eq_complete, exec_eq_complete, cmdResult_withHost]
  exact complete_map_withHost host (cmdResult i s)

/-! ## The obligation -/

/-- Settles O34: a command's result with other host registers is the same result with those registers in it, and
its completion keeps them. -/
theorem commandsReadTheirOperandsFromTheLatchesOnly :
    Obligations.CommandsReadTheirOperandsFromTheLatchesOnly := by
  intro i s l b d w h x y q o other
  have hother : State.withHost (other s) = other := rfl
  have hsame := exec_withHost i s (other s)
  rwa [hother] at hsame

end Sys2Proof.Machine
end

section
/-! Proofs of the state family (10_state.md), part three: the registers as the host reads and writes them. -/

namespace Sys2Proof.Machine

/-! ## Each register as a number -/

theorem readReg_ctrl (s : State) : s.readReg .ctrl = if s.irqEn then 1#32 else 0#32 := by
  rw [State.readReg]
  cases s.irqEn <;> rfl

theorem readReg_srcLen_toNat (s : State) : (s.readReg .srcLen).toNat = s.srcLen.toNat :=
  BitVec.toNat_setWidth_of_le (by decide)

theorem readReg_srcBase_toNat (s : State) : (s.readReg .srcBase).toNat = s.srcBase.toNat :=
  BitVec.toNat_setWidth_of_le (by decide)

theorem readReg_dstBase_toNat (s : State) :
    (s.readReg .dstBase).toNat = s.dstBase.toNat % s.params.frameSize :=
  (BitVec.toNat_setWidth_of_le (by decide)).trans (dstField_toNat s)

/-! ## The obligations -/

/-- Settles O37: a read answers `State.readReg` of the register at its address, which is each clause's
register. -/
theorem registerReadsReturnTheirFields : Obligations.RegisterReadsReturnTheirFields := by
  intro s addr ha hlt hmod
  obtain ⟨r, hr⟩ := (exists_reg_addr_iff addr.toNat).2 ⟨hlt, hmod⟩
  have at_addr {q : Reg} (hq : addr.toNat = q.addr) : s.readReg r = s.readReg q :=
    congrArg s.readReg (Reg.addr_inj (hr.symm.trans hq))
  refine ⟨s.readReg r, step_read32 ha hr, fun h => ?_, fun h => ?_, fun h => ?_, fun h => ?_, fun h => ?_,
    fun h => ?_, fun h => ?_, fun h => ?_, fun h => ?_, fun h => ?_⟩
  · exact at_addr (q := .cmd) h
  · rw [at_addr (q := .ctrl) h, readReg_ctrl]
  · rw [at_addr (q := .srcLen) h, readReg_srcLen_toNat]
  · rw [at_addr (q := .srcBase) h, readReg_srcBase_toNat]
  · rw [at_addr (q := .dstBase) h, readReg_dstBase_toNat]; rfl
  · rw [at_addr (q := .geom) h]; exact pair_toNat s.height s.width
  · rw [at_addr (q := .query) h]; exact pair_toNat s.qy s.qx
  · exact at_addr (q := .result) h
  · exact at_addr (q := .sprInfo) h
  · rw [at_addr (q := .param) h]; exact paramWord_toNat s.params

/-- Settles O38: the step is `State.writeReg` of the register at the address. -/
theorem registerWritesTakeEffectAtOnce : Obligations.RegisterWritesTakeEffectAtOnce := by
  intro s addr w ha
  exact ⟨step_write32 (r := .status) ha, step_write32 (r := .ctrl) ha, step_write32 (r := .srcLen) ha,
    step_write32 (r := .srcBase) ha,
    fun h => ⟨_, dstBits_toNat s.params w.toNat, step_write32 (r := .dstBase) ha h⟩,
    step_write32 (r := .geom) ha, step_write32 (r := .query) ha, fun h => by
      obtain h | h | h := h
      · exact step_write32 (r := .result) ha h
      · exact step_write32 (r := .sprInfo) ha h
      · exact step_write32 (r := .param) ha h⟩

end Sys2Proof.Machine
end

section
/-! Proofs of the memory family (20_memory.md, 70_reset_and_hazards.md section 3), part two: what the host
reads of SRC and FRAME, and what it reads back. -/

namespace Sys2Proof.Machine

/-! ## A byte read by its three outcomes -/

theorem hostReadSrc_of_some {s : State} {a : Nat} {v : Byte} (h : s.src.read a = some v) :
    hostReadSrc a s = .next (s.reply (.byte v)) := by
  rw [hostReadSrc, h]

theorem hostReadSrc_of_none {s : State} {a : Nat} (h : s.src.read a = none) :
    hostReadSrc a s = .fault .srcByteNoValue := by
  rw [hostReadSrc, h]

theorem hostReadFrame_racing {s : State} {a : Nat} (h : s.frameRacing = true) : hostReadFrame a s =
    .next { s.reply (.byte (Config.freeByte s.draws)) with draws := s.draws + 1 } :=
  if_pos h

theorem hostReadFrame_of_some {s : State} {a : Nat} {v : Byte} (hr : s.frameRacing = false)
    (h : s.frame.read a = some v) : hostReadFrame a s = .next (s.reply (.byte v)) := by
  simp [hostReadFrame, hr, h]

theorem hostReadFrame_of_none {s : State} {a : Nat} (hr : s.frameRacing = false)
    (h : s.frame.read a = none) : hostReadFrame a s = .fault .frameByteNoValue := by
  simp [hostReadFrame, hr, h]

theorem frameRacing_eq_false {s : State}
    (h : ¬(s.phase = .busy ∧ ∃ i, s.latched i ∧ i.writesFrame)) : s.frameRacing = false :=
  Bool.eq_false_iff.2 (mt (frameRacing_iff s).1 h)

/-- R236: FRAME reads race only while BUSY. -/
theorem frameRacing_of_idle {s : State} (h : s.phase = .idle) : s.frameRacing = false :=
  frameRacing_eq_false fun hb => nomatch h.symm.trans hb.1

/-! ## A byte write while IDLE -/

theorem popped_eq {s : State} {e : Event} {l : List Event} (h : s.events = e :: l) :
    s.popped = { s with events := l } := by
  rw [State.popped, h]
  rfl

theorem step_writeSrc_idle {s : State} {addr : BitVec 24} {a : Nat} {v : Byte} {l : List Event}
    (he : s.events = .host (.write8 addr v) :: l) (hp : s.phase = .idle) (ha : a < 65536)
    (haddr : addr.toNat = 0x10000 + a) :
    step s = .next { s with events := l, src := s.src.write a v } := by
  have hn : s.hostNext (.write8 addr v) := by rw [State.hostNext, he]; rfl
  rw [step_write8_src hn ha haddr, writeSrc_idle (s := s.popped) a v hp, popped_eq he]

theorem step_writeFrame_idle {s : State} {addr : BitVec 24} {a : Nat} {v : Byte} {l : List Event}
    (he : s.events = .host (.write8 addr v) :: l) (hp : s.phase = .idle) (ha : a < s.params.frameSize)
    (haddr : addr.toNat = 0x100000 + a) :
    step s = .next { s with events := l, frame := s.frame.write a v } := by
  have hn : s.hostNext (.write8 addr v) := by rw [State.hostNext, he]; rfl
  rw [step_write8_frame hn ha haddr, writeFrame_idle (s := s.popped) a v hp, popped_eq he]

/-! ## The obligations -/

/-- Settles O42: of the host transactions only a read is a read, and it leaves one reply. -/
theorem readsChangeNothing : Obligations.ReadsChangeNothing := by
  intro s t addr ha h
  obtain ⟨a, hn, hread⟩ : ∃ a, s.hostNext a ∧ (a = .read8 addr ∨ a = .read32 addr) :=
    ha.elim (fun h8 => ⟨_, h8, .inl rfl⟩) fun h32 => ⟨_, h32, .inr rfl⟩
  rw [step_host hn] at h
  obtain ⟨-, r, d, rfl⟩ | ⟨_, _, _, rfl, -⟩ | ⟨_, _, _, rfl, -⟩ | ⟨_, _, _, rfl, -⟩ := busAccess_next_cases h
  · exact ⟨r, rfl⟩
  all_goals exact hread.elim nofun nofun

/-- Settles O44: `State.frameRacing` is the race of R236, and a read of SRC never races. -/
theorem frameReadsRaceOnlyWithPlaneAndSprite : Obligations.FrameReadsRaceOnlyWithPlaneAndSprite := by
  refine fun s addr a ha => ⟨fun hlt haddr => ⟨fun hb hw => ⟨Config.freeByte s.draws, ?_⟩, fun hno v hv => ?_⟩,
    fun hlt haddr v hv => ?_⟩
  · rw [step_read8_frame ha hlt haddr, hostReadFrame_racing ((frameRacing_iff s.popped).2 ⟨hb, hw⟩)]
    rfl
  · rw [step_read8_frame ha hlt haddr, hostReadFrame_of_some (frameRacing_eq_false (s := s.popped) hno) hv]
    rfl
  · rw [step_read8_src ha hlt haddr, hostReadSrc_of_some (s := s.popped) hv]
    rfl

/-- Settles O45: without a race, a byte without a value is the fault of its memory. -/
theorem readingAnUnwrittenByteFaults : Obligations.ReadingAnUnwrittenByteFaults := by
  refine fun s addr a ha => ⟨fun hlt haddr hnone => ?_, fun hlt haddr hnone hno => ?_⟩
  · rw [step_read8_src ha hlt haddr, hostReadSrc_of_none (s := s.popped) hnone]
  · rw [step_read8_frame ha hlt haddr, hostReadFrame_of_none (frameRacing_eq_false (s := s.popped) hno) hnone]

/-- Settles O46: the write is `Memory.write`, which changes one byte, and the read while IDLE does not race. -/
theorem hostByteWriteReadsBack : Obligations.HostByteWriteReadsBack := by
  intro s addr v a rest hp he
  refine ⟨fun hlt haddr => ⟨s.src.write a v, ?_, Memory.read_write_same _ a v,
      fun b => Memory.read_write_other _ v⟩,
    fun hlt haddr => ⟨s.frame.write a v, ?_, Memory.read_write_same _ a v,
      fun b => Memory.read_write_other _ v⟩⟩
  · rw [run_succ (step_writeSrc_idle he hp hlt haddr), run_one]
    exact Eq.trans (step_read8_src rfl hlt haddr) (hostReadSrc_of_some (Memory.read_write_same _ a v))
  · rw [run_succ (step_writeFrame_idle he hp hlt haddr), run_one]
    exact Eq.trans (step_read8_frame rfl hlt haddr)
      (hostReadFrame_of_some (frameRacing_of_idle hp) (Memory.read_write_same _ a v))

end Sys2Proof.Machine
end

section
/-! Proofs of the host's runs (30_encoding.md R87, 40_command_sequencer.md R105): polling STATUS, the
pseudo-instructions and the completion of an accepted command. -/

namespace Sys2Proof.Machine

/-! ## Polling STATUS -/

theorem run_fault {n : Nat} {s : State} {f : Fault} (h : step s = .fault f) :
    Sys2Proof.core.run (n + 1) s = .fault f := by
  have h : Sys2Proof.core.step s = .fault f := h
  simp only [Host.Core.run, h]

/-- `s` after `n` reads of STATUS, with the events `l` still to come. -/
def State.polled (n : Nat) (l : List Event) (s : State) : State :=
  { s with events := l, replies := s.replies ++ List.replicate n (.word s.statusWord) }

theorem State.polled_polled (s : State) (m n : Nat) (l l' : List Event) :
    (s.polled m l).polled n l' = s.polled (m + n) l' := by
  show ({ s with
    events := l',
    replies := s.replies ++ List.replicate m (.word s.statusWord) ++ List.replicate n (.word s.statusWord) } :
      State) = _
  rw [List.append_assoc, List.replicate_append_replicate]
  rfl

theorem State.polled_zero {s : State} {l : List Event} (h : s.events = l) : s.polled 0 l = s := by
  subst h
  simp [State.polled]

theorem step_poll {s : State} {addr : BitVec 24} {l : List Event} (h4 : addr.toNat = 0x000004)
    (he : s.events = .host (.read32 addr) :: l) : step s = .next (s.polled 1 l) := by
  have ha : s.hostNext (.read32 addr) := by rw [State.hostNext, he]; rfl
  rw [step_read32 (r := .status) ha h4, popped_eq he]
  rfl

/-- R69: a poll leaves its reply alone, so `n` polls leave `n` equal ones. -/
theorem run_polls {addr : BitVec 24} (h4 : addr.toNat = 0x000004) (k : Nat) {l : List Event} {n : Nat}
    {s : State} (he : s.events = List.replicate n (.host (.read32 addr)) ++ l) :
    Sys2Proof.core.run (n + k) s = Sys2Proof.core.run k (s.polled n l) := by
  induction n generalizing s with
  | zero =>
    obtain rfl : s.events = l := he
    rw [State.polled_zero rfl, Nat.zero_add]
  | succ n ih =>
    calc Sys2Proof.core.run (n + 1 + k) s
        = Sys2Proof.core.run (n + k + 1) s := by rw [Nat.add_right_comm]
      _ = Sys2Proof.core.run (n + k) (s.polled 1 (List.replicate n (.host (.read32 addr)) ++ l)) :=
        run_succ (step_poll h4 (by rw [he]; rfl))
      _ = Sys2Proof.core.run k ((s.polled 1 _).polled n l) := ih rfl
      _ = Sys2Proof.core.run k (s.polled (n + 1) l) := by rw [State.polled_polled, Nat.add_comm]

theorem State.Inv.polled {s : State} (hi : s.Inv) (n : Nat) (l : List Event) : (s.polled n l).Inv :=
  hi.withRecord _ _ _

theorem statusWord_idle {s : State} (h : s.phase = .idle) : s.statusWord.getLsbD 0 = false :=
  Bool.eq_false_iff.2 fun hb => nomatch h.symm.trans ((statusWord_busy s).1 hb)

/-- The sequencer's turn while IDLE is taken and changes nothing else (R100). -/
theorem step_sequencer_idle {s : State} {l : List Event} (he : s.events = .sequencer :: l)
    (hp : s.phase = .idle) : step s = .next { s with events := l } := by
  rw [step_event (by rw [he]; rfl), act, popped_eq he, sequencerStep, hp]

/-! ## The operands of the pseudo-instructions -/

/-- The two byte fields of GEOM and QUERY in a written word. -/
theorem extractBytes_toNat {a b : Nat} (ha : a < 256) (hb : b < 256) :
    ((BitVec.ofNat 32 (b * 256 + a)).extractLsb' 0 8).toNat = a ∧
      ((BitVec.ofNat 32 (b * 256 + a)).extractLsb' 8 8).toNat = b := by
  simp only [BitVec.extractLsb'_toNat, BitVec.toNat_ofNat, Nat.shiftRight_eq_div_pow]
  omega

theorem extractHalf_toNat {n : Nat} (hn : n < 65536) :
    ((BitVec.ofNat 32 n).extractLsb' 0 16).toNat = n := by
  simp only [BitVec.extractLsb'_toNat, BitVec.toNat_ofNat, Nat.shiftRight_eq_div_pow]
  omega

/-- R37: a coordinate's byte is its two's complement. -/
theorem toInt_eq_of_emod {v : Byte} {x : Int} (h : v.toNat = (x % 256).toNat) (hlo : -128 ≤ x)
    (hhi : x ≤ 127) : v.toInt = x := by
  rw [BitVec.toInt_eq_toNat_cond]
  omega

/-- The transactions of `ldsrc`, one write after another. -/
theorem run_loadBytes {rest : List Event} (vs : List Byte) {a : Nat} {s : State}
    (he : s.events = hostEvents (loadBytes a vs) ++ rest) (hlen : a + vs.length ≤ 65536)
    (hp : s.phase = .idle) : ∃ m : Memory,
      Sys2Proof.core.run vs.length s = .next { s with events := rest, src := m } ∧
      (∀ k, k < vs.length → m.read (a + k) = vs[k]?) ∧
      (∀ b, b < a ∨ a + vs.length ≤ b → m.read b = s.src.read b) := by
  induction vs generalizing a s with
  | nil =>
    obtain rfl : s.events = rest := he
    exact ⟨s.src, rfl, nofun, fun b _ => rfl⟩
  | cons v vs ih =>
    rw [List.length_cons] at hlen ⊢
    have haddr : (srcAddr (BitVec.ofNat 16 a)).toNat = 0x10000 + a := by
      rw [srcAddr_toNat, BitVec.toNat_ofNat, Nat.mod_eq_of_lt (by omega)]
    have hstep := step_writeSrc_idle (l := hostEvents (loadBytes (a + 1) vs) ++ rest) he hp (by omega) haddr
    obtain ⟨m, hrun, hin, hout⟩ := ih (a := a + 1)
      (s := { s with events := hostEvents (loadBytes (a + 1) vs) ++ rest, src := s.src.write a v })
      rfl (by omega) hp
    refine ⟨m, (run_succ hstep).trans hrun, fun k hk => ?_, fun b hb => ?_⟩
    · cases k with
      | zero => exact (hout a (by omega)).trans (Memory.read_write_same _ a v)
      | succ k => exact Nat.add_right_comm a 1 k ▸ hin k (by omega)
    · exact (hout b (by omega)).trans (Memory.read_write_other _ v (by omega))

/-! ## The pseudo-instructions, one by one -/

section Pseudo

variable {s : State} {rest : List Event}

theorem step_cmd {i : Instr} (he : s.events = hostEvents (Pseudo.cmd i).expand ++ rest)
    (hp : s.phase = .idle) : step s = .next { s.accept (encode i) with events := rest } := by
  rw [step_wr (r := .cmd) (l := rest) he]
  exact congrArg Host.Outcome.next (writeCmd_idle (s := { s with events := rest }) (encode i) hp)

theorem step_ack (he : s.events = hostEvents Pseudo.ack.expand ++ rest) :
    step s = .next { s with events := rest, done := false } := by
  rw [step_wr (r := .status) (l := rest) he, writeReg_status]
  rfl

theorem step_geom {W H : Nat} (he : s.events = hostEvents (Pseudo.geom W H).expand ++ rest) :
    step s = .next { s with
      events := rest
      width := (BitVec.ofNat 32 (H * 256 + W)).extractLsb' 0 8
      height := (BitVec.ofNat 32 (H * 256 + W)).extractLsb' 8 8 } :=
  step_wr (r := .geom) (l := rest) he

theorem step_query {X Y : Int} (he : s.events = hostEvents (Pseudo.query X Y).expand ++ rest) :
    step s = .next { s with
      events := rest
      qx := (BitVec.ofNat 32 ((Y % 256).toNat * 256 + (X % 256).toNat)).extractLsb' 0 8
      qy := (BitVec.ofNat 32 ((Y % 256).toNat * 256 + (X % 256).toNat)).extractLsb' 8 8 } :=
  step_wr (r := .query) (l := rest) he

theorem run_src {B L : Nat} (he : s.events = hostEvents (Pseudo.src B L).expand ++ rest) :
    Sys2Proof.core.run 2 s = .next { s with
      events := rest
      srcBase := (BitVec.ofNat 32 B).extractLsb' 0 16
      srcLen := (BitVec.ofNat 32 L).extractLsb' 0 16 } := by
  rw [run_succ (step_wr (r := .srcBase) he), run_one]
  exact step_wr (r := .srcLen) (l := rest) rfl

end Pseudo

/-! ## The sequencer's turn after the polls -/

theorem polled_turn {n : Nat} {s : State} {l : List Event} (hb : s.phase = .busy)
    (hl : l = [] ∨ l.head? = some .sequencer) : (s.polled n l).SequencerTurn := ⟨hb, hl⟩

/-- R87: the run of `wait` with `n` polls before the completion comes to the sequencer's turn. -/
theorem run_wait {n : Nat} {s : State} {rest : List Event} (he : s.events = waitEvents n ++ rest) :
    Sys2Proof.core.run (n + 2) s = Sys2Proof.core.run 2
      (s.polled n (.sequencer :: .host (HostInstr.rd .status).access :: rest)) :=
  run_polls (Reg.hostAddr_toNat .status) 2 (he.trans (List.append_assoc ..))

/-! ## The obligations -/

/-- Settles O54: the polls leave the invariant and the BUSY phase, and then no event waits, so that the turn is
the sequencer's, which completes or faults. -/
theorem acceptedCommandCompletesWhileTheHostWaits :
    Obligations.AcceptedCommandCompletesWhileTheHostWaits := by
  intro n s addr hi hb h4 he
  have hrun : Sys2Proof.core.run (n + 1) s = step (s.polled n []) :=
    (run_polls h4 1 (by rw [he, List.append_nil])).trans (run_one _)
  obtain ⟨t, ht, hidle, hdone, hev, hrep⟩ | hf := step_turn_cases (hi.polled n []) (polled_turn hb (.inl rfl))
  · exact .inl ⟨t, ⟨hrun.trans ht, hev, hidle⟩, hdone, hrep⟩
  · exact .inr (hrun.trans hf)

/-- Settles O48: each expansion is a list of register or byte writes, whose words hold the operands in their
fields; `wait` is polls around the sequencer's turn. -/
theorem pseudoInstructionsLeaveTheirOperands : Obligations.PseudoInstructionsLeaveTheirOperands := by
  refine ⟨fun s p rest he => ⟨?_, ?_, ?_, ?_, ?_, ?_⟩, ?_, ?_⟩
  · rintro i rfl hp
    exact ⟨step_cmd he hp, accept_latched (decode_ok_iff.2 rfl)⟩
  · rintro rfl
    exact step_ack he
  · rintro W H rfl hW hH
    obtain ⟨hw, hh⟩ := extractBytes_toNat (a := W) (b := H) (by omega) (by omega)
    exact ⟨_, _, hw, hh, step_geom he⟩
  · rintro X Y rfl hX0 hX1 hY0 hY1
    obtain ⟨hx, hy⟩ := extractBytes_toNat (a := (X % 256).toNat) (b := (Y % 256).toNat) (by omega) (by omega)
    exact ⟨_, _, toInt_eq_of_emod hx hX0 hX1, toInt_eq_of_emod hy hY0 hY1, step_query he⟩
  · rintro B L rfl hB hL
    exact ⟨_, _, extractHalf_toNat (by omega), extractHalf_toNat (by omega), run_src he⟩
  · rintro a vs rfl hlen hp
    exact run_loadBytes vs he hlen hp
  · intro n s rest hi hb he polled
    refine ⟨(statusWord_busy s).2 hb, ?_⟩
    have hinv : State.Inv polled := hi.polled n _
    have hturn : State.SequencerTurn polled := polled_turn hb (.inr rfl)
    obtain ⟨t, ht, hidle, hdone, hev, hrep⟩ | hf := step_turn_cases hinv hturn
    · exact .inl ⟨t, ht, hidle, hdone, hrep, statusWord_idle hidle,
        (run_wait he).trans <| (run_succ ht).trans <| (run_one t).trans (step_rd hev)⟩
    · exact .inr ⟨hf, (run_wait he).trans (run_fault hf)⟩
  · intro s rest hp he
    refine ⟨statusWord_idle hp, ?_⟩
    rw [run_succ (step_sequencer_idle he hp), run_one]
    exact step_rd (r := .status) rfl

end Sys2Proof.Machine
end
